-- ==== Sys2Proof/Word.lean ====
section
/-! DEFINITION. The machine's widths (spec/00_scope.md R5, R7): cells, words, operands and the two kinds of address. -/

namespace Sys2Proof

/-- One cell of the tape, one byte of a stream: 8 bits, unsigned (R5 `CELL_BITS`). -/
abbrev Byte := BitVec 8

/-- One instruction word: 16 bits (R5 `WORD_BITS`). -/
abbrev Word := BitVec 16

/-- The operand field of a word: 13 bits, unsigned, 0 to 8191 (R5 `OPD_BITS`). -/
abbrev Operand := BitVec 13

/-- An index into the instruction memory, the width of `pc` (R5 `PC_BITS`, R11). -/
abbrev CodeIndex := BitVec 13

/-- An address of the tape, the width of `dp` (R5 `DP_BITS`, R12). -/
abbrev CellAddr := BitVec 16

end Sys2Proof
end

