-- ==== Sys2Proof/Machine/Operands.lean ====
section
/-! DEFINITION. What each instruction makes of its 13-bit operand (spec/30_encoding.md R47). All arithmetic is exact on
integers and then taken modulo the width (spec/40_cell_arithmetic.md R72); nothing is signed. The only other operand is the
current cell (spec/10_state.md R20). -/

namespace Sys2Proof.Machine

/-- ADD: `(c + n) mod 256` (R70). -/
def cellPlus (c : Byte) (n : Operand) : Byte := BitVec.ofNat 8 (c.toNat + n.toNat)

/-- SUB: `(c - n) mod 256` into 0 to 255 (R71). -/
def cellMinus (c : Byte) (n : Operand) : Byte := BitVec.ofInt 8 ((c.toNat : Int) - (n.toNat : Int))

/-- RGT: `(dp + n) mod 65536` (R76). -/
def pointerRight (d : CellAddr) (n : Operand) : CellAddr := BitVec.ofNat 16 (d.toNat + n.toNat)

/-- LFT: `(dp - n) mod 65536` into 0 to 65535 (R75). -/
def pointerLeft (d : CellAddr) (n : Operand) : CellAddr := BitVec.ofInt 16 ((d.toNat : Int) - (n.toNat : Int))

/-- JPZ, JNZ: the operand is the absolute index of the target, as wide as `pc` (R47, R84, R85). -/
def jumpTarget (t : Operand) : CodeIndex := t

end Sys2Proof.Machine
end

