-- ==== Sys2Proof/Config.lean ====
section
/-! DEFINITION. What an implementation fixes: the sizes of spec/00_scope.md R5 and the two parameters the spec leaves OPEN.
The core itself has no open value (spec/93_implementation_defined.md: nothing in the core is "any value" at run time). -/

namespace Sys2Proof.Config

/-- `TAPE_CELLS`: exactly 65536 cells (R5, R13). -/
def tapeCells : Nat := 65536

/-- `IMEM_WORDS`: 8192 words (R5, R14). -/
def imemWords : Nat := 8192

/-- The highest index of the instruction memory, which `advance` cannot leave (R82). -/
def lastIndex : CodeIndex := 8191

/-- `SENTINEL`: the all-zero word that ends a program (R5, R49). -/
def sentinelWord : Word := 0

/-- DESIGN CHOICE (safe, log entry 13): the open parameter `ASM_OPEN_PLACEHOLDER` (R64, decision D22), the word the
Compiler leaves at an open bracket until the matching close is met. It has no value in the model. -/
opaque asmOpenPlaceholder : Word

/-- DESIGN CHOICE (safe, log entry 13): the open parameter `ASM_MAX_DEPTH` (R67, decision D24), the original Compiler's
bracket-stack depth. It has no value in the model. -/
opaque asmMaxDepth : Nat

end Sys2Proof.Config
end

