-- ==== Sys2Proof/Syntax.lean ====
section
/-! DEFINITION. The nine things a word can be (spec/30_encoding.md R48, R50; one constructor per row of spec/opcode_table.json). -/

namespace Sys2Proof

/-- A decoded word. GET and PUT carry no operand: R50 decodes them without one, whatever stands in bits 15 to 3. -/
inductive Instr where
  /-- `END`, the sentinel word `0x0000` (R49, R83). -/
  | sentinel
  /-- `ADD n` (R70). -/
  | add (n : Operand)
  /-- `SUB n` (R71). -/
  | sub (n : Operand)
  /-- `LFT n` (R75). -/
  | lft (n : Operand)
  /-- `RGT n` (R76). -/
  | rgt (n : Operand)
  /-- `JPZ t` (R84). -/
  | jpz (t : Operand)
  /-- `JNZ t` (R85). -/
  | jnz (t : Operand)
  /-- `GET` (R92). -/
  | get
  /-- `PUT` (R94). -/
  | put
deriving DecidableEq, Repr

end Sys2Proof
end

