-- ==== Sys2Proof/WellFormed.lean ====
section
/-! DEFINITION. Which terms of `Instr` some word stands for. -/

namespace Sys2Proof

/-- The one check: `ADD 0` does not exist, its word is the sentinel (spec/30_encoding.md R49, spec/90_conflicts.md C2).
Every other operand value is accepted (R51). -/
def WellFormed : Instr → Bool
  | .sentinel => true
  | .add n => n != 0
  | .sub _ => true
  | .lft _ => true
  | .rgt _ => true
  | .jpz _ => true
  | .jnz _ => true
  | .get => true
  | .put => true

end Sys2Proof
end

