-- ==== Sys2Proof/Decode.lean ====
section
/-! DEFINITION. From words to instructions and back (spec/30_encoding.md R45 to R51), and from serialised bytes to words
(spec/20_memory.md R34). -/

namespace Sys2Proof

/-- The eight opcodes (R48). -/
inductive Opcode where
  | add | sub | lft | rgt | jpz | jnz | get | put
deriving DecidableEq, Repr

/-- `w[2:0]` (R46). -/
def opcodeField (w : Word) : BitVec 3 := w.extractLsb' 0 3

/-- `w[15:3]` (R46, R47): one contiguous unsigned field. -/
def operandField (w : Word) : Operand := w.extractLsb' 3 13

/-- The opcode map, by the binary column of R48: all eight values are assigned. -/
def opcodeOfField (f : BitVec 3) : Opcode :=
  match f.getLsbD 2, f.getLsbD 1, f.getLsbD 0 with
  | false, false, false => .add
  | false, false, true => .sub
  | false, true, false => .lft
  | false, true, true => .rgt
  | true, false, false => .jpz
  | true, false, true => .jnz
  | true, true, false => .get
  | true, true, true => .put

/-- The opcode map read the other way (R48). -/
def opcodeBits : Opcode → BitVec 3
  | .add => 0
  | .sub => 1
  | .lft => 2
  | .rgt => 3
  | .jpz => 4
  | .jnz => 5
  | .get => 6
  | .put => 7

/-- R50. Total: the sentinel test on the whole word comes first (R49), then the opcode selects. -/
def decode (w : Word) : Instr :=
  if w = Config.sentinelWord then .sentinel
  else
    match opcodeOfField (opcodeField w) with
    | .add => .add (operandField w)
    | .sub => .sub (operandField w)
    | .lft => .lft (operandField w)
    | .rgt => .rgt (operandField w)
    | .jpz => .jpz (operandField w)
    | .jnz => .jnz (operandField w)
    | .get => .get
    | .put => .put

/-- Format W (R46): the operand in bits 15 to 3, the opcode in bits 2 to 0. -/
def joinWord (n : Operand) (op : Opcode) : Word := n ++ opcodeBits op

/-- R50's encoder, written from R46 and R48. GET and PUT take the canonical operand 0 (R65, decision D20). -/
def encode : Instr → Word
  | .sentinel => Config.sentinelWord
  | .add n => joinWord n .add
  | .sub n => joinWord n .sub
  | .lft n => joinWord n .lft
  | .rgt n => joinWord n .rgt
  | .jpz t => joinWord t .jpz
  | .jnz t => joinWord t .jnz
  | .get => joinWord 0 .get
  | .put => joinWord 0 .put

/-! ### Serialised images (R34): each word low byte first -/

/-- The two bytes of a word, low byte first (R34). -/
def wordBytes (w : Word) : List Byte := [w.extractLsb' 0 8, w.extractLsb' 8 8]

/-- A list of words as bytes: word `i` occupies bytes `2i` and `2i + 1` (R34). -/
def imageBytes : List Word → List Byte
  | [] => []
  | w :: ws => wordBytes w ++ imageBytes ws

/-- Why bytes were not read as words. -/
inductive BytesRefusal where
  /-- The bytes end inside a word. DESIGN CHOICE (safe, log entry 16): R34 gives no meaning to half a word. -/
  | truncatedWord
deriving DecidableEq, Repr

/-- The words of serialised bytes (R34). -/
def wordsOfBytes : List Byte → Except BytesRefusal (List Word)
  | [] => .ok []
  | [_] => .error .truncatedWord
  | lo :: hi :: rest =>
    match wordsOfBytes rest with
    | .ok ws => .ok ((hi ++ lo) :: ws)
    | .error r => .error r

/-- One instruction from the front of serialised bytes, with the bytes that follow it. -/
def decodeBytes : List Byte → Except BytesRefusal (Instr × List Byte)
  | [] => .error .truncatedWord
  | [_] => .error .truncatedWord
  | lo :: hi :: rest => .ok (decode (hi ++ lo), rest)

/-- The instruction whose bits, numbered as spec/opcode_table.json numbers them, are `w`: one 16-bit word, given as its
two bytes to the byte decoder. No instruction is longer than a word (R45; DESIGN CHOICE, safe, log entry 16). -/
def decodeTableWord (nbits w : Nat) : Option Instr :=
  if nbits ≤ 16 then
    match decodeBytes (wordBytes (BitVec.ofNat 16 (w % 2 ^ nbits))) with
    | .ok (i, []) => some i
    | .ok (_, _ :: _) => none
    | .error _ => none
  else none

end Sys2Proof
end

