-- ==== Sys2Proof/Machine/Memory.lean ====
section
/-! DEFINITION. Sparse memories as plain data: a list of (address, value) pairs (DESIGN CHOICE, safe, log entry 20). An unlisted address reads as 0, which is
what the spec gives both memories where nothing was stored: cells "all start at zero" (spec/10_state.md R13,
spec/70_reset_and_hazards.md R116), words outside the program are `0x0000` (R119). -/

namespace Sys2Proof.Machine.Memory

/-- The value at `a`: the first entry for `a`, 0 where there is none. -/
def read {w : Nat} : List (Nat × BitVec w) → Nat → BitVec w
  | [], _ => 0
  | (k, v) :: rest, a => if k = a then v else read rest a

/-- No entry for `a` any more. -/
def erase {w : Nat} (m : List (Nat × BitVec w)) (a : Nat) : List (Nat × BitVec w) :=
  m.filter fun c => c.1 != a

/-- An entry for `a` put in front of the first higher address. -/
def insert {w : Nat} : List (Nat × BitVec w) → Nat → BitVec w → List (Nat × BitVec w)
  | [], a, v => [(a, v)]
  | (k, x) :: rest, a, v => if a < k then (a, v) :: (k, x) :: rest else (k, x) :: insert rest a v

/-- Store `v` at `a`. Storing 0, which an unlisted address reads as, leaves no entry. -/
def write {w : Nat} (m : List (Nat × BitVec w)) (a : Nat) (v : BitVec w) : List (Nat × BitVec w) :=
  if v = 0 then erase m a else insert (erase m a) a v

/-- The canonical form: addresses strictly rising and below `size`, no entry equal to 0. -/
abbrev wf {w : Nat} (size : Nat) (m : List (Nat × BitVec w)) : Prop :=
  m.Pairwise (fun c d => c.1 < d.1) ∧ ∀ c ∈ m, c.1 < size ∧ c.2 ≠ 0

/-- The canonical memory that holds `ws` from index `i` upward and 0 elsewhere. -/
def ofList {w : Nat} : Nat → List (BitVec w) → List (Nat × BitVec w)
  | _, [] => []
  | i, v :: ws => if v = 0 then ofList (i + 1) ws else (i, v) :: ofList (i + 1) ws

end Sys2Proof.Machine.Memory
end

