-- ==== Sys2Proof/Machine/State.lean ====
section
/-! DEFINITION. The state of the machine, what stops a step, and the state after reset (spec/10_state.md). -/

namespace Sys2Proof.Machine

/-- `STATUS` (R18): why the core is or is not executing. All four values of the 2-bit field are assigned. -/
inductive Status where
  /-- 0: one instruction per step. -/
  | running
  /-- 1: the word at `pc` was the sentinel. -/
  | haltEnd
  /-- 2: GET met end-of-stream with `exit_on_eof = 1`. -/
  | haltEof
  /-- 3: the successor of index 8191 was needed. -/
  | faultPcOverflow
deriving DecidableEq, Repr

/-- Why a step answers no next state. -/
inductive Fault where
  /-- Raised by `step` alone, in a state whose `STATUS` is not `RUNNING`: "the core has no step" (R103). Carries that
  `STATUS`. Safe: the hardware does nothing there either. DESIGN CHOICE of the form, log entry 5. -/
  | noStep (status : Status)
deriving DecidableEq, Repr

/-- Why an instruction has no meaning. -/
inductive Refusal where
  /-- Raised by an arm of `exec` for an instruction the model leaves out. Safe. No arm raises it: every instruction has
  its meaning. -/
  | notModelled (mnemonic : String)
deriving DecidableEq, Repr

/-- R10: the architectural state `(pc, dp, TAPE, INPOS, OUT, STATUS)`, and beside it the parameters of the run
`(IMEM, IN, exit_on_eof)`, which no instruction writes (DESIGN CHOICE, safe, log entry 1). -/
structure State where
  /-- R11: index of the word being executed. -/
  pc : CodeIndex
  /-- R12: address of the current cell; the only general register. -/
  dp : CellAddr
  /-- R13: `TAPE`, 65536 cells; canonical by `Memory.wf`. -/
  tape : List Host.Cell
  /-- R15: `INPOS`, how many bytes of the input were consumed. -/
  inPos : Nat
  /-- R16: `OUT`, the bytes written so far, oldest first. -/
  out : List Byte
  /-- R18: `STATUS`. -/
  status : Status
  /-- R14: `IMEM`, 8192 words by index; canonical by `Memory.wf`. -/
  imem : List (Nat × Word)
  /-- R15: `IN`, the content of the input stream (finite: DESIGN CHOICE, unsafe, log entry 8). -/
  input : List Byte
  /-- R17: `CFG` bit 0, `exit_on_eof`. -/
  exitOnEof : Bool
deriving DecidableEq, Repr

/-- R23. The last three are not reset by the core but supplied by the host: DESIGN CHOICE, unsafe, log entries 2, 3, 4:
every word `0x0000`, no input, `exit_on_eof = 0`. -/
def State.reset : State where
  pc := 0
  dp := 0
  tape := []
  inPos := 0
  out := []
  status := .running
  imem := []
  input := []
  exitOnEof := false

end Sys2Proof.Machine
end

