-- ==== Sys2Proof/Machine/Ops.lean ====
section
/-! DEFINITION. The primitives of spec/00_scope.md R8 as operations on the state: every read and write of a piece of state
goes through one of them. -/

namespace Sys2Proof.Machine

/-! ### Registers -/

/-- `pc <- t` (R8). -/
def State.setPc (s : State) (t : CodeIndex) : State := { s with pc := t }

/-- `dp <- v` (R8). -/
def State.setDp (s : State) (d : CellAddr) : State := { s with dp := d }

/-- `STATUS <- c` (R18). -/
def State.setStatus (s : State) (c : Status) : State := { s with status := c }

/-- The 2-bit code of `STATUS` (R18). -/
def statusCode : Status → BitVec 2
  | .running => 0
  | .haltEnd => 1
  | .haltEof => 2
  | .faultPcOverflow => 3

/-- `CFG` as a register: `exit_on_eof` is bit 0, its only field (R17). -/
def State.cfg (s : State) : BitVec 1 := BitVec.ofBool s.exitOnEof

/-! ### The two memories -/

/-- `MemRead(a, 1)` (R32): no fault, no side effect. -/
def State.memRead (s : State) (a : CellAddr) : Byte := Memory.read s.tape a.toNat

/-- `MemWrite(a, 1, v)` (R32): that cell and no other. -/
def State.memWrite (s : State) (a : CellAddr) (v : Byte) : State :=
  { s with tape := Memory.write s.tape a.toNat v }

/-- `Fetch(i)` (R31): the whole word `IMEM[i]`; every index exists. -/
def State.fetch (s : State) (i : CodeIndex) : Word := Memory.read s.imem i.toNat

/-- The host's `imem_load` port (R22): the word at index `i`. No instruction reaches it (R40). -/
def State.loadWord (s : State) (i : CodeIndex) (w : Word) : State :=
  { s with imem := Memory.write s.imem i.toNat w }

/-! ### The two streams -/

/-- What `InGet()` returns (R8, R15). -/
inductive InByte where
  | byte (b : Byte)
  | eos
deriving DecidableEq, Repr

/-- `InGet()` (R15): the next byte of `IN` and the cursor moved past it, or `EOS` and nothing changed. -/
def State.inGet (s : State) : InByte × State :=
  match s.input[s.inPos]? with
  | some b => (.byte b, { s with inPos := s.inPos + 1 })
  | none => (.eos, s)

/-- `OutPut(b)` (R16): appended to `OUT`; never full. -/
def State.outPut (s : State) (b : Byte) : State := { s with out := s.out ++ [b] }

/-! ### Ends of a run and the sequential successor -/

/-- `stop(c)` (R8), with `c` one of `HALT_END`, `HALT_EOF`: `STATUS <- c` and nothing else. -/
def State.stop (s : State) (c : Status) : State := s.setStatus c

/-- `raise PcOverflow` (R101), the one fault and so the one exception entry of the machine: `STATUS <- FAULT_PC_OVERFLOW`,
`pc` stays, what the instruction did before is kept. There is no handler and no return from it (R106, R107). The faulted
state is a NEXT state (DESIGN CHOICE, unsafe, log entry 6). -/
def State.raisePcOverflow (s : State) : State := s.setStatus .faultPcOverflow

/-- `advance` (R82): the sequential successor of `pc`, which index 8191 does not have. -/
def State.advance (s : State) : State :=
  if s.pc = Config.lastIndex then s.raisePcOverflow else s.setPc (s.pc + 1)

/-- `reset` (R115), from any state: the reset values of R23 for the architectural state; `IMEM`, `IN` and `CFG` are the
host's and stay. Assertion and release are one move (DESIGN CHOICE, unsafe, log entry 10). -/
def State.applyReset (s : State) : State :=
  { State.reset with imem := s.imem, input := s.input, exitOnEof := s.exitOnEof }

end Sys2Proof.Machine
end

