-- ==== Sys2Proof/Machine/CellArithmetic.lean ====
section
/-! DEFINITION. ADD and SUB (spec/40_cell_arithmetic.md). -/

namespace Sys2Proof.Machine

/-- Read the current cell, write what `f` makes of it, advance: the shape of R70 and R71. -/
def State.updateCell (s : State) (f : Byte → Byte) : State :=
  (s.memWrite s.dp (f (s.memRead s.dp))).advance

/-- ADD n (R70). `ADD 0` never decodes (R49); the term's meaning is the same formula (DESIGN CHOICE, safe, log entry 17). -/
def execAdd (n : Operand) (s : State) : Host.Outcome State Fault Refusal :=
  .next (s.updateCell fun c => cellPlus c n)

/-- SUB n (R71). -/
def execSub (n : Operand) (s : State) : Host.Outcome State Fault Refusal :=
  .next (s.updateCell fun c => cellMinus c n)

end Sys2Proof.Machine
end

