-- ==== Sys2Proof/Machine/Flags.lean ====
section
/-! DEFINITION. The machine has no flags and no condition codes (spec/10_state.md R19): no instruction leaves a carry,
zero, sign or overflow bit. The one condition it knows is the test JPZ and JNZ make of the current cell itself. -/

namespace Sys2Proof.Machine

/-- "if cell[data pointer] == 0" (R19, R84, R85). -/
def cellIsZero (c : Byte) : Bool := c == 0

end Sys2Proof.Machine
end

