-- ==== Sys2Proof/Machine/ControlTransfer.lean ====
section
/-! DEFINITION. END, JPZ and JNZ (spec/42_control_transfer.md). -/

namespace Sys2Proof.Machine

/-- END (R83): the run ends normally; `pc` stays on the sentinel. -/
def execSentinel (s : State) : Host.Outcome State Fault Refusal := .next (s.stop .haltEnd)

/-- Take the jump, with no advance and no fault, or advance (R84, R85). -/
def State.jumpIf (s : State) (taken : Bool) (t : Operand) : State :=
  if taken then s.setPc (jumpTarget t) else s.advance

/-- JPZ t (R84): taken when the current cell is zero. -/
def execJpz (t : Operand) (s : State) : Host.Outcome State Fault Refusal :=
  .next (s.jumpIf (cellIsZero (s.memRead s.dp)) t)

/-- JNZ t (R85): taken when the current cell is not zero. -/
def execJnz (t : Operand) (s : State) : Host.Outcome State Fault Refusal :=
  .next (s.jumpIf (!cellIsZero (s.memRead s.dp)) t)

end Sys2Proof.Machine
end

