-- ==== Sys2Proof/Machine/InputOutput.lean ====
section
/-! DEFINITION. GET and PUT (spec/43_io.md). No hold is a step: the whole input is known and the output is unbounded
(R97; DESIGN CHOICE, unsafe, log entry 9). -/

namespace Sys2Proof.Machine

/-- GET (R92): the byte read goes to the current cell; at end-of-stream 0 goes there, or with `exit_on_eof` the run stops
with nothing else changed (R93). -/
def execGet (s : State) : Host.Outcome State Fault Refusal :=
  match s.inGet with
  | (.byte b, s') => .next (s'.memWrite s'.dp b).advance
  | (.eos, s') => if s'.exitOnEof then .next (s'.stop .haltEof) else .next (s'.memWrite s'.dp 0).advance

/-- PUT (R94): the current cell, raw, to the output. -/
def execPut (s : State) : Host.Outcome State Fault Refusal :=
  .next (s.outPut (s.memRead s.dp)).advance

end Sys2Proof.Machine
end

