-- ==== Sys2Proof/Machine/PointerMovement.lean ====
section
/-! DEFINITION. LFT and RGT (spec/41_pointer_movement.md). No cell is read or written. -/

namespace Sys2Proof.Machine

/-- LFT n (R75). -/
def execLft (n : Operand) (s : State) : Host.Outcome State Fault Refusal :=
  .next (s.setDp (pointerLeft s.dp n)).advance

/-- RGT n (R76). -/
def execRgt (n : Operand) (s : State) : Host.Outcome State Fault Refusal :=
  .next (s.setDp (pointerRight s.dp n)).advance

end Sys2Proof.Machine
end

