-- ==== Sys2Proof/Machine/Dispatch.lean ====
section
/-! DEFINITION. One arm per instruction: the dispatch of spec/42_control_transfer.md R80. -/

namespace Sys2Proof.Machine

/-- The instruction's own effect. That a step exists only while `STATUS = RUNNING` is `step`'s test, as in R80 (DEDUCED, safe, log
entry 18). -/
def exec (i : Instr) (s : State) : Host.Outcome State Fault Refusal :=
  match i with
  | .sentinel => Sys2Proof.Machine.execSentinel s
  | .add n => Sys2Proof.Machine.execAdd n s
  | .sub n => Sys2Proof.Machine.execSub n s
  | .lft n => Sys2Proof.Machine.execLft n s
  | .rgt n => Sys2Proof.Machine.execRgt n s
  | .jpz t => Sys2Proof.Machine.execJpz t s
  | .jnz t => Sys2Proof.Machine.execJnz t s
  | .get => Sys2Proof.Machine.execGet s
  | .put => Sys2Proof.Machine.execPut s

end Sys2Proof.Machine
end

