-- ==== Sys2Proof/Machine/Fetch.lean ====
section
/-! DEFINITION. What a step does around its instruction (spec/42_control_transfer.md R80): whether there is a step, and
which instruction it executes; and the same instruction placed for the next step. -/

namespace Sys2Proof.Machine

/-- A step exists only with `STATUS = RUNNING` (R80). -/
def State.isRunning (s : State) : Bool := s.status == .running

/-- The instruction at `pc` (R80): `decode(Fetch(pc))`. -/
def State.instrAtPc (s : State) : Instr := decode (s.fetch s.pc)

/-- No step (R103). The answer names the `STATUS` (DESIGN CHOICE, safe, log entry 5). -/
def State.noStep (s : State) : Host.Outcome State Fault Refusal := .fault (.noStep s.status)

/-- The word put where the next step fetches, and `STATUS = RUNNING` so that there is a next step: it stands for the
host's load before reset is released (R118; DESIGN CHOICE, safe, log entry 7). -/
def State.placeWord (s : State) (w : Word) : State := (s.loadWord s.pc w).setStatus .running

end Sys2Proof.Machine
end

