-- ==== Sys2Proof/Machine/Step.lean ====
section
/-! DEFINITION. One step of the core (spec/42_control_transfer.md R80). -/

namespace Sys2Proof.Machine

/-- R80: with `STATUS = RUNNING` the word at `pc` is executed; otherwise there is no step. -/
def step (s : State) : Host.Outcome State Fault Refusal :=
  if s.isRunning then exec s.instrAtPc s else s.noStep

/-- The instruction whose bits are `w` placed where the next step fetches (DESIGN CHOICE, safe, log entry 7). -/
def State.withFetchWord (s : State) (nbits w : Nat) : State :=
  s.placeWord (BitVec.ofNat 16 (w % 2 ^ nbits))

end Sys2Proof.Machine
end

