-- ==== Sys2Proof/Machine/Assembler.lean ====
section
/-! DEFINITION. The Compiler as assembler (spec/30_encoding.md R60 to R67): source text to words. It is software outside the
core; no rule of the core reads it. -/

namespace Sys2Proof.Machine

/-! ### Source text to elements (R61, R62) -/

/-- The four operators whose runs are merged, "the four arithmetic/movement operators" (R61, R62). -/
inductive RunOp where
  | plus | minus | left | right
deriving DecidableEq, Repr

/-- What one stretch of source text stands for. A comment character stands for nothing but breaks a run (R62; DEDUCED,
unsafe, log entry 15). -/
inductive Element where
  | run (op : RunOp) (length : Nat)
  | openBracket
  | closeBracket
  | comma
  | dot
  | comment
deriving DecidableEq, Repr

/-- R61's character table: the element a character begins. The pairing of `<` and `>` is the spec's own from general
knowledge (PRESUMED, unsafe, log entry 14). -/
def elementOf (c : Char) : Element :=
  if c = '+' then .run .plus 1
  else if c = '-' then .run .minus 1
  else if c = '<' then .run .left 1
  else if c = '>' then .run .right 1
  else if c = '[' then .openBracket
  else if c = ']' then .closeBracket
  else if c = ',' then .comma
  else if c = '.' then .dot
  else .comment

/-- Put an element in front, joined with a run of the same operator that follows at once (R62). -/
def consElement : Element → List Element → List Element
  | .run op n, .run op' m :: es => if op = op' then .run op (n + m) :: es else .run op n :: .run op' m :: es
  | e, es => e :: es

/-- Source text as elements: every run maximal (R62). -/
def elements : List Char → List Element
  | [] => []
  | c :: cs => consElement (elementOf c) (elements cs)

/-! ### Elements to words (R62 to R67) -/

/-- `n * 8 + opcode`, in 16 bits (R67). -/
def asmWord (n opc : Nat) : Word := BitVec.ofNat 16 (n * 8 + opc)

/-- `opc(c)` of R67. -/
def runOpcode : RunOp → Nat
  | .plus => 0
  | .minus => 1
  | .left => 2
  | .right => 3

/-- The Compiler's working state: the words emitted and the stack of open-loop positions, innermost first (R63). -/
structure AsmState where
  code : List Word
  stack : List Nat
deriving DecidableEq, Repr

/-- `emit(w)` (R67). -/
def AsmState.emit (a : AsmState) (w : Word) : AsmState := { a with code := a.code ++ [w] }

/-- An open bracket: its index pushed, a placeholder emitted (R63). -/
def AsmState.openAt (a : AsmState) : AsmState :=
  { code := a.code ++ [Config.asmOpenPlaceholder], stack := a.code.length :: a.stack }

/-- A close bracket at index `k`: with an open one at `j`, `JPZ (k + 1)` patched in at `j` and `JNZ j` emitted (R63; the
operand of the JPZ as spec/90_conflicts.md C1 decides); with none, `JNZ (k + 1)` emitted (R64, decision D21). -/
def AsmState.close (a : AsmState) : AsmState :=
  match a.stack with
  | j :: rest => { code := a.code.set j (asmWord (a.code.length + 1) 4) ++ [asmWord j 5], stack := rest }
  | [] => a.emit (asmWord (a.code.length + 1) 5)

/-- One element (R62 to R65). A run's operand is its length modulo 8192, silently (R62, spec/90_conflicts.md C3). -/
def AsmState.element (a : AsmState) : Element → AsmState
  | .run op n => a.emit (asmWord (n % 8192) (runOpcode op))
  | .openBracket => a.openAt
  | .closeBracket => a.close
  | .comma => a.emit 0x0006
  | .dot => a.emit 0x0007
  | .comment => a

/-- Why source text has no image here: the two `refuse` lines of R67, this spec's own. -/
inductive AsmRefusal where
  /-- An open bracket is never closed (R64 b, decision D22). Safe: the original compiles such a source. -/
  | unclosedBracket
  /-- More than 8192 words (R66, decision D23). Safe. -/
  | imageTooLong
deriving DecidableEq, Repr

/-- The words of all elements, before the sentinel. -/
def assembleElements (src : List Char) : AsmState :=
  (elements src).foldl AsmState.element { code := [], stack := [] }

/-- R67. -/
def assemble (src : List Char) : Except AsmRefusal (List Word) :=
  let a := assembleElements src
  if a.stack ≠ [] then .error .unclosedBracket
  else
    let code := a.code ++ [Config.sentinelWord]
    if code.length > Config.imemWords then .error .imageTooLong else .ok code

/-- The deepest the bracket stack gets, from `depth` open brackets. -/
def nestingFrom : Nat → List Char → Nat
  | depth, [] => depth
  | depth, c :: cs =>
    if c = '[' then nestingFrom (depth + 1) cs
    else if c = ']' then max depth (nestingFrom (depth - 1) cs)
    else nestingFrom depth cs

/-- The sources for which the original Compiler's bounded stack is deep enough, so that this assembler, which has no
ceiling, can stand for it (R67, decision D24; the bound is open). -/
def withinOriginalDepth (src : List Char) : Bool := nestingFrom 0 src ≤ Config.asmMaxDepth

end Sys2Proof.Machine
end

