-- ==== Sys2Proof/Machine/Disassembler.lean ====
section
/-! DEFINITION. The Disassembler (spec/30_encoding.md R60, R68): a listing tool, no part of the core. It executes nothing
and is never active during a run. -/

namespace Sys2Proof.Machine

/-- The names of R48 and R49. -/
def mnemonicOf : Instr → String
  | .sentinel => "END"
  | .add _ => "ADD"
  | .sub _ => "SUB"
  | .lft _ => "LFT"
  | .rgt _ => "RGT"
  | .jpz _ => "JPZ"
  | .jnz _ => "JNZ"
  | .get => "GET"
  | .put => "PUT"

/-- One output line: "mnemonic name plus operand" (R68). -/
structure ListingLine where
  mnemonic : String
  operand : Nat
deriving DecidableEq, Repr

/-- The line of a word (R68, decision D25). GET and PUT print their unused field too (DEDUCED, unsafe, log entry 11). -/
def lineOf (w : Word) : ListingLine := { mnemonic := mnemonicOf (decode w), operand := (operandField w).toNat }

/-- The line as text: `MNEMONIC n`, `n` decimal (R60, R68). -/
def lineText (l : ListingLine) : String := l.mnemonic ++ " " ++ toString l.operand

/-- One line per word in index order, stopping at the first sentinel without a line for it (R68). Words that hold no
sentinel are listed to their end (DESIGN CHOICE, unsafe, log entry 12). -/
def disassemble : List Word → List ListingLine
  | [] => []
  | w :: ws => if w = Config.sentinelWord then [] else lineOf w :: disassemble ws

/-- The content of the instruction memory, index 0 first (R14). -/
def State.imemWords (s : State) : List Word := (List.range Config.imemWords).map fun i => Memory.read s.imem i

/-- The listing of the loaded image (R68). -/
def State.listing (s : State) : List ListingLine := disassemble s.imemWords

end Sys2Proof.Machine
end

