-- ==== Sys2Proof/Machine/HostPort.lean ====
section
/-! DEFINITION. What the host does to the core (spec/60_exceptions.md R111, spec/70_reset_and_hazards.md R115, R118, R119,
spec/10_state.md R22), as operations beside `step`. A "must never" of R111 is a refusal by name (R125, U12). -/

namespace Sys2Proof.Machine

/-- Why a host operation is turned away. Safe: the spec gives it no meaning. -/
inductive HostRefusal where
  /-- The image has more than 8192 words (R66, decision D23). -/
  | imageTooLong
  /-- The image or `exit_on_eof` would change, or the tape be read, while `STATUS = RUNNING` (R22, R111, R125). -/
  | whileRunning
deriving DecidableEq, Repr

/-- What the host prepares before it releases reset (R118, steps 1 to 4). -/
structure HostSetup where
  image : List Word
  exitOnEof : Bool
  input : List Byte
deriving DecidableEq, Repr

/-- The image from index 0 upward, every word after it `0x0000` (R118, R119); a longer one does not fit (R66). An image
that holds no sentinel is loaded as it is, since the rules give every image a meaning (R14; DESIGN CHOICE, safe, log entry 19). -/
def loadImage (ws : List Word) : Except HostRefusal (List (Nat × Word)) :=
  if ws.length > Config.imemWords then .error .imageTooLong else .ok (Memory.ofList 0 ws)

/-- The boot order of R118, from any state: image, `exit_on_eof` and input set, reset released. -/
def State.boot (s : State) (h : HostSetup) : Except HostRefusal State :=
  match loadImage h.image with
  | .ok m => .ok { s.applyReset with imem := m, exitOnEof := h.exitOnEof, input := h.input }
  | .error r => .error r

/-- A write through `imem_load` (R22): only while the core is stopped (or under reset, which is `boot`). -/
def State.imemLoad (s : State) (i : CodeIndex) (w : Word) : Except HostRefusal State :=
  if s.isRunning then .error .whileRunning else .ok (s.loadWord i w)

/-- Driving `exit_on_eof` (R17, R111): held constant while `STATUS = RUNNING`. -/
def State.configure (s : State) (flag : Bool) : Except HostRefusal State :=
  if s.isRunning then .error .whileRunning else .ok { s with exitOnEof := flag }

/-- The `tape_peek` port (R22, R111). -/
def State.tapePeek (s : State) (a : CellAddr) : Except HostRefusal Byte :=
  if s.isRunning then .error .whileRunning else .ok (s.memRead a)

/-- The `status` port (R22): `STATUS`, `pc` and `dp`. DESIGN CHOICE, unsafe (log entry 21): all three are shown in every
state, running or stopped. R22 and R111 ask for a stop only before the tape is read; R16, R112 and D17 speak of reading
`pc` and `dp` after one. -/
structure StatusPort where
  status : BitVec 2
  pc : CodeIndex
  dp : CellAddr
deriving DecidableEq, Repr

/-- What the `status` port shows, in every state (DESIGN CHOICE, unsafe, log entry 21). -/
def State.statusPort (s : State) : StatusPort := { status := statusCode s.status, pc := s.pc, dp := s.dp }

/-- The observable result of a run that ended (R112). -/
structure RunResult where
  status : Status
  out : List Byte
  pc : CodeIndex
  dp : CellAddr
  tape : List Host.Cell
  inPos : Nat
deriving DecidableEq, Repr

/-- The result, once the run has ended (R112); a run that goes on shows only `out`. -/
def State.result (s : State) : Option RunResult :=
  if s.isRunning then none
  else some { status := s.status, out := s.out, pc := s.pc, dp := s.dp, tape := s.tape, inPos := s.inPos }

end Sys2Proof.Machine
end

