-- ==== Sys2Proof/Safety.lean ====
section
/-! DEFINITION. The terms in which claims about the machine are stated: runs and how they end, the invariant of every
state, what an instruction leaves alone. -/

namespace Sys2Proof.Machine

/-! ### Runs (spec/42_control_transfer.md R81) -/

/-- The state `k` steps after `s`, where the run is that long. -/
def State.after (s : State) : Nat → Option State
  | 0 => some s
  | k + 1 =>
    match step s with
    | .next t => t.after k
    | .fault _ => none
    | .refused _ => none

/-- The run from `s` ends in `t`, its final state (R81). -/
def State.EndsIn (s t : State) : Prop := ∃ k, s.after k = some t ∧ t.status ≠ .running

/-- The run from `s` never ends (R89): kept as an infinite execution. -/
def State.Diverges (s : State) : Prop := ∀ k, ∃ t, s.after k = some t ∧ t.status = .running

/-- `t` stands somewhere on the run from `s`. -/
def State.Reaches (s t : State) : Prop := ∃ k, s.after k = some t

/-- The state of the fault, "never a good end" (R101). -/
def State.Faulted (s : State) : Prop := s.status = .faultPcOverflow

/-- A safe run: it never meets the fault (R101: "a claim about a program takes 'no fault' as a premise or proves it"). -/
def State.SafeRun (s : State) : Prop := ∀ t, s.Reaches t → ¬ t.Faulted

/-- The part of the fill rule that keeps the fault away: the last word is the sentinel (R101, R119). -/
def State.LastWordIsSentinel (s : State) : Prop := s.fetch Config.lastIndex = Config.sentinelWord

/-! ### The invariant of every state -/

/-- Both memories in canonical form (with every cell and word inside its space, R13, R14) and the cursor inside the input
(R15: `0 <= INPOS <= L`). -/
abbrev State.Inv (s : State) : Prop :=
  Memory.wf Config.tapeCells s.tape ∧ Memory.wf Config.imemWords s.imem ∧ s.inPos ≤ s.input.length

/-! ### Relations between the state before and the state after -/

/-- What `advance` makes of `pc` and `STATUS` (R82): index 8191 has no successor. -/
def Advanced (s t : State) : Prop :=
  (s.pc.toNat < 8191 → t.pc.toNat = s.pc.toNat + 1 ∧ t.status = s.status) ∧
    (s.pc.toNat = 8191 → t.pc.toNat = 8191 ∧ t.status = .faultPcOverflow)

/-- Instruction memory, input content and configuration are as before (R6, R10, R40). -/
def SameParameters (s t : State) : Prop :=
  t.imem = s.imem ∧ t.input = s.input ∧ t.exitOnEof = s.exitOnEof

/-- Every cell but the current one reads as before (R32). -/
def OtherCellsSame (s t : State) : Prop := ∀ a : CellAddr, a ≠ s.dp → t.memRead a = s.memRead a

/-- The cursor and the bytes written are as before. -/
def SameStreams (s t : State) : Prop := t.inPos = s.inPos ∧ t.out = s.out

/-- `t` is `s` with the tape and `dp` turned by `k` cells: what runs that differ only in where `dp` starts look like
(spec/10_state.md R12, last sentence; the tape is a ring, R77). -/
def RotatedBy (k : CellAddr) (s t : State) : Prop :=
  t.pc = s.pc ∧ t.dp = s.dp + k ∧ (∀ a : CellAddr, t.memRead (a + k) = s.memRead a) ∧
    t.inPos = s.inPos ∧ t.out = s.out ∧ t.status = s.status ∧ SameParameters s t

end Sys2Proof.Machine
end

