-- ==== Sys2Proof/Certificates/Slice0/Obligations.lean ====
section
/-! DEFINITION. The statements for the provers. Each docstring names the rule of spec/ it formalises, or the section it
rests on. -/

open Sys2Proof Sys2Proof.Machine

/-! ### Encoding (spec/30_encoding.md, spec/20_memory.md section 2) -/

/-- R46. -/
def Obligations.WordLayoutIsOperandTimesEightPlusOpcode : Prop :=
  (∀ w : Word, (opcodeField w).toNat = w.toNat % 8 ∧ (operandField w).toNat = w.toNat / 8 ∧
    w.toNat = (operandField w).toNat * 8 + (opcodeField w).toNat) ∧
  ∀ (n : Operand) (op : Opcode), (joinWord n op).toNat = n.toNat * 8 + (opcodeBits op).toNat

/-- R48. The word `0x0000` is apart: it is the sentinel (R49). -/
def Obligations.OpcodeFieldSelectsTheInstruction : Prop :=
  ∀ w : Word, w ≠ 0 →
    (w.toNat % 8 = 0 → decode w = .add (BitVec.ofNat 13 (w.toNat / 8))) ∧
    (w.toNat % 8 = 1 → decode w = .sub (BitVec.ofNat 13 (w.toNat / 8))) ∧
    (w.toNat % 8 = 2 → decode w = .lft (BitVec.ofNat 13 (w.toNat / 8))) ∧
    (w.toNat % 8 = 3 → decode w = .rgt (BitVec.ofNat 13 (w.toNat / 8))) ∧
    (w.toNat % 8 = 4 → decode w = .jpz (BitVec.ofNat 13 (w.toNat / 8))) ∧
    (w.toNat % 8 = 5 → decode w = .jnz (BitVec.ofNat 13 (w.toNat / 8))) ∧
    (w.toNat % 8 = 6 → decode w = .get) ∧
    (w.toNat % 8 = 7 → decode w = .put)

/-- R49: the zero word and no other is the sentinel, it is tested before the opcode and ends the run, and `ADD 0` does not
exist. -/
def Obligations.SentinelIsTheZeroWordAndNoOther : Prop :=
  (∀ w : Word, decode w = .sentinel ↔ w = 0) ∧ (∀ w : Word, decode w ≠ .add 0) ∧
  ∀ s : State, s.status = .running → s.fetch s.pc = 0 → step s = .next { s with status := .haltEnd }

/-- spec/30_encoding.md section 3 (R50's match and mask form, an inference the spec marks as derived). -/
def Obligations.DecodeAgreesWithMatchAndMask : Prop :=
  ∀ w : Word,
    (decode w = .sentinel ↔ w &&& 0xFFFF = 0x0000) ∧
    ((∃ n, decode w = .add n) ↔ w &&& 0xFFFF ≠ 0x0000 ∧ w &&& 0x0007 = 0x0000) ∧
    ((∃ n, decode w = .sub n) ↔ w &&& 0x0007 = 0x0001) ∧
    ((∃ n, decode w = .lft n) ↔ w &&& 0x0007 = 0x0002) ∧
    ((∃ n, decode w = .rgt n) ↔ w &&& 0x0007 = 0x0003) ∧
    ((∃ t, decode w = .jpz t) ↔ w &&& 0x0007 = 0x0004) ∧
    ((∃ t, decode w = .jnz t) ↔ w &&& 0x0007 = 0x0005) ∧
    (decode w = .get ↔ w &&& 0x0007 = 0x0006) ∧
    (decode w = .put ↔ w &&& 0x0007 = 0x0007)

/-- spec/30_encoding.md section 3: no bit of a well-formed instruction's encoding is dropped. -/
def Obligations.DecodeOfEncodeIsTheInstruction : Prop :=
  ∀ i : Instr, WellFormed i = true → decode (encode i) = i

/-- spec/30_encoding.md section 3: "decode followed by re-encoding returns the same word except that GET and PUT lose their
ignored operand bits". -/
def Obligations.EncodeOfDecodeKeepsAllButIgnoredBits : Prop :=
  ∀ w : Word, encode (decode w) = if w.toNat % 8 < 6 then w else w &&& 0x0007

/-- spec/30_encoding.md sections 3 and 4, spec/90_conflicts.md C2: every word decodes, and never to `ADD 0`. -/
def Obligations.EveryWordDecodesToAWellFormedInstruction : Prop :=
  ∀ w : Word, WellFormed (decode w) = true

/-- spec/30_encoding.md section 6, the worked encodings (derived there from the word layout). -/
def Obligations.WorkedEncodingsDecode : Prop :=
  decode 0x0008 = .add 1 ∧ decode 0x07F8 = .add 255 ∧ decode 0xFFF8 = .add 8191 ∧ decode 0x0009 = .sub 1 ∧
  decode 0x000A = .lft 1 ∧ decode 0xFFFB = .rgt 8191 ∧ decode 0x001C = .jpz 3 ∧ decode 0x0005 = .jnz 0 ∧
  decode 0x0006 = .get ∧ decode 0x0007 = .put ∧ decode 0x0000 = .sentinel

/-- R34. -/
def Obligations.SerialisedImageIsLowByteFirst : Prop :=
  ∀ (ws : List Word) (i : Nat) (h : i < ws.length),
    ∃ lo hi : Byte, (imageBytes ws)[2 * i]? = some lo ∧ (imageBytes ws)[2 * i + 1]? = some hi ∧
      lo.toNat = ws[i].toNat % 256 ∧ hi.toNat = ws[i].toNat / 256

/-- spec/20_memory.md section 2: serialising loses nothing. -/
def Obligations.ImageBytesReadBackAsTheWords : Prop :=
  ∀ ws : List Word, wordsOfBytes (imageBytes ws) = .ok ws

/-! ### The step and the run (spec/42_control_transfer.md, spec/60_exceptions.md) -/

/-- R80: what a step is, in a running and in a stopped state. -/
def Obligations.StepRunsTheDecodedInstruction : Prop :=
  ∀ s : State,
    (s.status ≠ .running → ∀ t, step s ≠ .next t) ∧
    (s.status = .running →
      step s = exec (decode (s.fetch s.pc)) s ∧
      (s.fetch s.pc = 0 → step s = .next { s with status := .haltEnd }) ∧
      (s.fetch s.pc ≠ 0 →
        let n := BitVec.ofNat 13 ((s.fetch s.pc).toNat / 8)
        ((s.fetch s.pc).toNat % 8 = 0 → step s = exec (.add n) s) ∧
        ((s.fetch s.pc).toNat % 8 = 1 → step s = exec (.sub n) s) ∧
        ((s.fetch s.pc).toNat % 8 = 2 → step s = exec (.lft n) s) ∧
        ((s.fetch s.pc).toNat % 8 = 3 → step s = exec (.rgt n) s) ∧
        ((s.fetch s.pc).toNat % 8 = 4 → step s = exec (.jpz n) s) ∧
        ((s.fetch s.pc).toNat % 8 = 5 → step s = exec (.jnz n) s) ∧
        ((s.fetch s.pc).toNat % 8 = 6 → step s = exec .get s) ∧
        ((s.fetch s.pc).toNat % 8 = 7 → step s = exec .put s)))

/-- spec/70_reset_and_hazards.md section 2, through the model's own placing of a word (log entry 7): the word placed is the
one the next step executes, and nothing but the word and `STATUS` was touched. -/
def Obligations.PlacedWordIsExecutedNext : Prop :=
  ∀ (s : State) (w : Word),
    step (s.withFetchWord 16 w.toNat) = exec (decode w) (s.withFetchWord 16 w.toNat) ∧
    (∀ i, i ≠ s.pc → (s.withFetchWord 16 w.toNat).fetch i = s.fetch i) ∧
    { s.withFetchWord 16 w.toNat with imem := s.imem, status := s.status } = s

/-- R103. How the model answers where there is no step is log entry 5; here only that there is none. -/
def Obligations.StoppedStatesAreAbsorbing : Prop :=
  ∀ s : State, s.status ≠ .running →
    (∀ t, step s ≠ .next t) ∧ (∀ k t, s.after k = some t → t = s) ∧ s.applyReset.status = .running

/-- spec/30_encoding.md section 4 and spec/60_exceptions.md section 1: no word and no data makes a running core answer a
`Fault` or a refusal. The spec's own fault, `PcOverflow`, can still be raised: it is a next state, the model's choice
(log entry 6). -/
def Obligations.RunningCoreAlwaysSteps : Prop :=
  ∀ s : State, (∃ t, step s = .next t) ↔ s.status = .running

/-- R81: a run ends once, in one of the three ways, or never. -/
def Obligations.RunEndsOnceOrNever : Prop :=
  ∀ s : State,
    ((∃ t, s.EndsIn t) ∨ s.Diverges) ∧ ((∃ t, s.EndsIn t) → ¬ s.Diverges) ∧
    (∀ t u, s.EndsIn t → s.EndsIn u → t = u) ∧
    ∀ t, s.EndsIn t → (∀ u, step t ≠ .next u) ∧
      (t.status = .haltEnd ∨ t.status = .haltEof ∨ t.status = .faultPcOverflow)

/-- spec/42_control_transfer.md section 1 (`advance`): one index further, or the fault at the top, and nothing else. -/
def Obligations.AdvanceMovesOneOnAndNeverWraps : Prop :=
  ∀ s : State, Advanced s s.advance ∧ { s.advance with pc := s.pc, status := s.status } = s

/-- R101 (less its last sentence, which the spec marks as derived and which has statements of its own below): at index 8191
every instruction that would go on to a successor commits its effect and faults; the fault is raised there alone, and not by
a taken jump, nor by the sentinel or a GET that stops; its code is 3 and it is final. That raising it answers `.next` is the
model's choice (log entry 6), and so is the meaning of the term ADD 0, which stands for no word (log entry 17). -/
def Obligations.PcOverflowKeepsTheEffectAndFaults : Prop :=
  (∀ s : State, s.pc.toNat = 8191 →
    (∀ n, exec (.add n) s = .next
      { s.memWrite s.dp (cellPlus (s.memRead s.dp) n) with status := .faultPcOverflow }) ∧
    (∀ n, exec (.sub n) s = .next
      { s.memWrite s.dp (cellMinus (s.memRead s.dp) n) with status := .faultPcOverflow }) ∧
    (∀ n, exec (.lft n) s = .next { s with dp := pointerLeft s.dp n, status := .faultPcOverflow }) ∧
    (∀ n, exec (.rgt n) s = .next { s with dp := pointerRight s.dp n, status := .faultPcOverflow }) ∧
    (∀ t, s.memRead s.dp ≠ 0 → exec (.jpz t) s = .next { s with status := .faultPcOverflow }) ∧
    (∀ t, s.memRead s.dp = 0 → exec (.jnz t) s = .next { s with status := .faultPcOverflow }) ∧
    (∀ h : s.inPos < s.input.length, exec .get s = .next
      { s.memWrite s.dp s.input[s.inPos] with inPos := s.inPos + 1, status := .faultPcOverflow }) ∧
    (s.input.length ≤ s.inPos → s.exitOnEof = false →
      exec .get s = .next { s.memWrite s.dp 0 with status := .faultPcOverflow }) ∧
    exec .put s = .next { s with out := s.out ++ [s.memRead s.dp], status := .faultPcOverflow }) ∧
  (∀ (i : Instr) (s t : State), exec i s = .next t → s.status ≠ .faultPcOverflow → t.status = .faultPcOverflow →
    s.pc.toNat = 8191 ∧ t.pc = s.pc ∧ i ≠ .sentinel ∧
    (∀ n, i = .jpz n → s.memRead s.dp ≠ 0) ∧ (∀ n, i = .jnz n → s.memRead s.dp = 0) ∧
    (i = .get → s.inPos < s.input.length ∨ s.exitOnEof = false)) ∧
  ∀ s : State, s.status = .faultPcOverflow → (statusCode s.status).toNat = 3 ∧ ∀ t, step s ≠ .next t

/-! ### What each instruction does, and where it completes -/

/-- R70. Its formula for the term ADD 0, which stands for no word, is the model's choice (log entry 17). -/
def Obligations.AddWritesTheSumModulo256 : Prop :=
  (∀ w : Word, w ≠ 0 → w.toNat % 8 = 0 → decode w = .add (BitVec.ofNat 13 (w.toNat / 8))) ∧
  (∀ w : Word, decode w ≠ .add 0) ∧
  ∀ (n : Operand) (s : State), ∃ t, exec (.add n) s = .next t ∧
    (t.memRead s.dp).toNat = ((s.memRead s.dp).toNat + n.toNat) % 256 ∧
    OtherCellsSame s t ∧ t.dp = s.dp ∧ SameStreams s t ∧ SameParameters s t ∧ Advanced s t

/-- R71. -/
def Obligations.SubWritesTheDifferenceModulo256 : Prop :=
  (∀ w : Word, w.toNat % 8 = 1 → decode w = .sub (BitVec.ofNat 13 (w.toNat / 8))) ∧
  ∀ (n : Operand) (s : State), ∃ t, exec (.sub n) s = .next t ∧
    ((t.memRead s.dp).toNat : Int) = (((s.memRead s.dp).toNat : Int) - (n.toNat : Int)) % 256 ∧
    OtherCellsSame s t ∧ t.dp = s.dp ∧ SameStreams s t ∧ SameParameters s t ∧ Advanced s t

/-- R75. -/
def Obligations.LftMovesThePointerDownModulo65536 : Prop :=
  (∀ w : Word, w.toNat % 8 = 2 → decode w = .lft (BitVec.ofNat 13 (w.toNat / 8))) ∧
  ∀ (n : Operand) (s : State), ∃ t, exec (.lft n) s = .next t ∧
    ((t.dp).toNat : Int) = ((s.dp.toNat : Int) - (n.toNat : Int)) % 65536 ∧
    t.tape = s.tape ∧ SameStreams s t ∧ SameParameters s t ∧ Advanced s t

/-- R76. -/
def Obligations.RgtMovesThePointerUpModulo65536 : Prop :=
  (∀ w : Word, w.toNat % 8 = 3 → decode w = .rgt (BitVec.ofNat 13 (w.toNat / 8))) ∧
  ∀ (n : Operand) (s : State), ∃ t, exec (.rgt n) s = .next t ∧
    t.dp.toNat = (s.dp.toNat + n.toNat) % 65536 ∧
    t.tape = s.tape ∧ SameStreams s t ∧ SameParameters s t ∧ Advanced s t

/-- R83. -/
def Obligations.EndStopsTheRunAndChangesNothingElse : Prop :=
  decode 0x0000 = .sentinel ∧
  (∀ s : State, exec .sentinel s = .next { s with status := .haltEnd }) ∧
  ∀ s : State, s.status = .running → s.fetch s.pc = 0x0000 →
    ∃ t, step s = .next t ∧ t = { s with status := .haltEnd } ∧ ∀ u, step t ≠ .next u

/-- R84. -/
def Obligations.JpzJumpsOnAZeroCell : Prop :=
  (∀ w : Word, w.toNat % 8 = 4 → decode w = .jpz (BitVec.ofNat 13 (w.toNat / 8))) ∧
  ∀ (t : Operand) (s : State),
    (s.memRead s.dp = 0 → ∃ u, exec (.jpz t) s = .next u ∧ u.pc.toNat = t.toNat ∧ { u with pc := s.pc } = s) ∧
    (s.memRead s.dp ≠ 0 → ∃ u, exec (.jpz t) s = .next u ∧ Advanced s u ∧
      u.tape = s.tape ∧ u.dp = s.dp ∧ SameStreams s u ∧ SameParameters s u)

/-- R85. -/
def Obligations.JnzJumpsOnANonzeroCell : Prop :=
  (∀ w : Word, w.toNat % 8 = 5 → decode w = .jnz (BitVec.ofNat 13 (w.toNat / 8))) ∧
  ∀ (t : Operand) (s : State),
    (s.memRead s.dp ≠ 0 → ∃ u, exec (.jnz t) s = .next u ∧ u.pc.toNat = t.toNat ∧ { u with pc := s.pc } = s) ∧
    (s.memRead s.dp = 0 → ∃ u, exec (.jnz t) s = .next u ∧ Advanced s u ∧
      u.tape = s.tape ∧ u.dp = s.dp ∧ SameStreams s u ∧ SameParameters s u)

/-- R92 and R93 (that the byte read goes to the current cell is the spec's decision D7, the state left by the stop D8). -/
def Obligations.GetStoresTheByteOrMeetsTheEnd : Prop :=
  (∀ w : Word, w.toNat % 8 = 6 → decode w = .get) ∧
  ∀ s : State,
    (∀ h : s.inPos < s.input.length, ∃ t, exec .get s = .next t ∧
      t.memRead s.dp = s.input[s.inPos] ∧ t.inPos = s.inPos + 1 ∧
      OtherCellsSame s t ∧ t.dp = s.dp ∧ t.out = s.out ∧ SameParameters s t ∧ Advanced s t) ∧
    (s.input.length ≤ s.inPos → s.exitOnEof = false → ∃ t, exec .get s = .next t ∧
      t.memRead s.dp = 0 ∧ OtherCellsSame s t ∧ t.dp = s.dp ∧ SameStreams s t ∧ SameParameters s t ∧ Advanced s t) ∧
    (s.input.length ≤ s.inPos → s.exitOnEof = true → exec .get s = .next { s with status := .haltEof })

/-- R94. -/
def Obligations.PutAppendsTheCurrentCell : Prop :=
  (∀ w : Word, w.toNat % 8 = 7 → decode w = .put) ∧
  ∀ s : State, ∃ t, exec .put s = .next t ∧ t.out = s.out ++ [s.memRead s.dp] ∧
    t.tape = s.tape ∧ t.dp = s.dp ∧ t.inPos = s.inPos ∧ SameParameters s t ∧ Advanced s t

/-! ### Frames over all instructions (spec/10_state.md section 11) -/

/-- The address stored to is `s.dp`; END, LFT, RGT, JPZ, JNZ and PUT store nothing. -/
def Obligations.OnlyTheCurrentCellIsWritten : Prop :=
  ∀ (i : Instr) (s t : State), exec i s = .next t →
    (∀ a : CellAddr, a ≠ s.dp → t.memRead a = s.memRead a) ∧
    ((∀ n, i ≠ .add n) → (∀ n, i ≠ .sub n) → i ≠ .get → t.tape = s.tape)

/-- `dp` is written by LFT and RGT alone. -/
def Obligations.OnlyLftAndRgtMoveThePointer : Prop :=
  ∀ (i : Instr) (s t : State), exec i s = .next t → (∀ n, i ≠ .lft n) → (∀ n, i ≠ .rgt n) → t.dp = s.dp

/-- `INPOS` is written by GET alone, `OUT` by PUT alone. -/
def Obligations.OnlyGetReadsInputAndOnlyPutWritesOutput : Prop :=
  ∀ (i : Instr) (s t : State), exec i s = .next t → (i ≠ .get → t.inPos = s.inPos) ∧ (i ≠ .put → t.out = s.out)

/-- No instruction writes the image, the input content or the configuration: not by a step, nor anywhere along a run. -/
def Obligations.RunNeverChangesItsParameters : Prop :=
  (∀ (i : Instr) (s t : State), exec i s = .next t → SameParameters s t) ∧
  ∀ (s t : State) (k : Nat), s.after k = some t → SameParameters s t

/-- spec/60_exceptions.md section 2, the complete list of the ways a run ends: a step leaves `STATUS` alone or is one of the
three endings, each with its `pc`. The fault is an ending by a next state (log entry 6). -/
def Obligations.StepEndsTheRunInThreeWaysOnly : Prop :=
  ∀ s t : State, step s = .next t →
    t.status = .running ∨
    (s.fetch s.pc = 0 ∧ t = { s with status := .haltEnd }) ∨
    (decode (s.fetch s.pc) = .get ∧ s.input.length ≤ s.inPos ∧ s.exitOnEof = true ∧
      t = { s with status := .haltEof }) ∨
    (s.pc.toNat = 8191 ∧ t.pc = s.pc ∧ t.status = .faultPcOverflow ∧ s.fetch s.pc ≠ 0)

/-! ### Invariants and rules of the whole machine -/

/-- Both memories stay canonical and inside their spaces, the cursor stays inside the input. -/
def Obligations.StepKeepsMemoriesCanonicalAndCursorInside : Prop :=
  ∀ s t : State, s.Inv → step s = .next t → t.Inv

/-- The reset state has the invariant. -/
def Obligations.ResetHasCanonicalMemoriesAndCursorInside : Prop := State.reset.Inv

/-- Every move of the host keeps it too. -/
def Obligations.HostMovesKeepMemoriesCanonicalAndCursorInside : Prop :=
  ∀ s t : State, s.Inv →
    s.applyReset.Inv ∧ (∀ h, s.boot h = .ok t → t.Inv) ∧ (∀ i w, s.imemLoad i w = .ok t → t.Inv) ∧
    (∀ flag, s.configure flag = .ok t → t.Inv) ∧ (∀ nbits w, (s.withFetchWord nbits w).Inv)

/-- spec/60_exceptions.md section 2, last sentence (an inference the spec marks as derived): where the last word of the
instruction memory is the sentinel, no step leads to the fault, and that stays so. The fault is the value of `STATUS` (log
entry 6). -/
def Obligations.SentinelInTheLastWordKeepsTheFaultAway : Prop :=
  ∀ s t : State, s.LastWordIsSentinel → ¬ s.Faulted → step s = .next t → t.LastWordIsSentinel ∧ ¬ t.Faulted

/-- The same over whole runs of every image whose word 8191, by the fill rule, is the sentinel. That `boot` also loads images
that do not end in `0x0000` is the model's choice (log entry 19); the fault is the value of `STATUS` (log entry 6). -/
def Obligations.FilledImagesNeverFault : Prop :=
  ∀ (s u : State) (h : HostSetup), h.image.getD 8191 0 = 0 → s.boot h = .ok u → u.SafeRun

/-- spec/20_memory.md section 7 (b), (c): `OUT` only grows and `INPOS` only moves on, by at most one a step, and so along a
run. -/
def Obligations.OutputAndCursorOnlyGrow : Prop :=
  (∀ s t : State, step s = .next t →
    (∃ bs : List Byte, t.out = s.out ++ bs ∧ bs.length ≤ 1) ∧ s.inPos ≤ t.inPos ∧ t.inPos ≤ s.inPos + 1) ∧
  ∀ (s t : State) (k : Nat), s.after k = some t →
    s.out <+: t.out ∧ t.out.length ≤ s.out.length + k ∧ s.inPos ≤ t.inPos ∧ t.inPos ≤ s.inPos + k

/-- spec/10_state.md section 3, last sentence (an inference the spec marks as derived), and the ring of
spec/41_pointer_movement.md: a machine whose tape and `dp` are turned by `k` cells makes the same step, turned. -/
def Obligations.TurnedTapesStepAlike : Prop :=
  ∀ (k : CellAddr) (s t s' : State), RotatedBy k s t → step s = .next s' →
    ∃ t', step t = .next t' ∧ RotatedBy k s' t'

/-- The same over runs: no output depends on where `dp` starts. -/
def Obligations.OutputDoesNotDependOnWhereThePointerStarts : Prop :=
  ∀ (k : CellAddr) (s t s' : State) (n : Nat), RotatedBy k s t → s.after n = some s' →
    ∃ t', t.after n = some t' ∧ t'.out = s'.out ∧ t'.status = s'.status ∧ t'.pc = s'.pc

/-- spec/42_control_transfer.md section 4 (hangs): a jump to its own index whose condition holds never ends. -/
def Obligations.TakenJumpToItselfNeverEnds : Prop :=
  ∀ s : State, s.status = .running →
    (s.fetch s.pc = encode (.jpz s.pc) → s.memRead s.dp = 0 → step s = .next s ∧ s.Diverges) ∧
    (s.fetch s.pc = encode (.jnz s.pc) → s.memRead s.dp ≠ 0 → step s = .next s ∧ s.Diverges)

/-! ### Laws of the arithmetic and of the idioms -/

/-- spec/30_encoding.md section 2: of the operand of ADD and SUB only `n mod 256` counts. Where a term is ADD 0, which stands
for no word, this is the model's choice (log entry 17). -/
def Obligations.CellOperandsCountModulo256 : Prop :=
  ∀ (n m : Operand) (s : State), n.toNat % 256 = m.toNat % 256 →
    exec (.add n) s = exec (.add m) s ∧ exec (.sub n) s = exec (.sub m) s

/-- spec/40_cell_arithmetic.md section with the arithmetic laws: two ADDs add up, modulo 256. Where a term is ADD 0,
which stands for no word, this is the model's choice (log entry 17). -/
def Obligations.TwoAddsAddUpModulo256 : Prop :=
  ∀ (a b : Operand) (s t u : State), exec (.add a) s = .next t → exec (.add b) t = .next u →
    (u.memRead s.dp).toNat = ((s.memRead s.dp).toNat + a.toNat + b.toNat) % 256 ∧ OtherCellsSame s u

/-- spec/40_cell_arithmetic.md (ADD then SUB) and spec/41_pointer_movement.md (RGT then LFT): both restore. For the term
ADD 0, which stands for no word, this is the model's choice (log entry 17). -/
def Obligations.OppositeInstructionsRestore : Prop :=
  ∀ (n : Operand) (s t u : State),
    (exec (.add n) s = .next t → exec (.sub n) t = .next u → ∀ a, u.memRead a = s.memRead a) ∧
    (exec (.rgt n) s = .next t → exec (.lft n) t = .next u → u.dp = s.dp ∧ u.tape = s.tape)

/-- spec/30_encoding.md section 4, the words without effect: `SUB 0`, `LFT 0`, `RGT 0`, and ADD and SUB of a multiple of 256
from 256 to 7936. Section 4 has `n = 0` for SUB only: that the term ADD 0, which stands for no word, advances too is the
model's choice (log entry 17). -/
def Obligations.WordsWithoutEffectOnlyAdvance : Prop :=
  ∀ (s : State) (n : Operand), n.toNat % 256 = 0 →
    (∃ t, exec (.sub n) s = .next t ∧ (∀ a, t.memRead a = s.memRead a) ∧ t.dp = s.dp ∧ Advanced s t) ∧
    (∃ t, exec (.add n) s = .next t ∧ (∀ a, t.memRead a = s.memRead a) ∧ t.dp = s.dp ∧ Advanced s t) ∧
    exec (.lft 0) s = .next s.advance ∧ exec (.rgt 0) s = .next s.advance

/-- spec/30_encoding.md sections 4 and 5: a jump to its own successor is a no-operation below index 8191, for every cell;
so the word for an unmatched close bracket is harmless. -/
def Obligations.JumpToTheSuccessorIsANoOperation : Prop :=
  ∀ s : State, s.pc.toNat < 8191 →
    exec (.jpz (s.pc + 1)) s = .next { s with pc := s.pc + 1 } ∧
    exec (.jnz (s.pc + 1)) s = .next { s with pc := s.pc + 1 }

/-- spec/42_control_transfer.md section 4: `JPZ t`, `JNZ t` at consecutive indices always reach `t`. -/
def Obligations.JumpPairAlwaysReachesItsTarget : Prop :=
  ∀ (s : State) (t : Operand), s.pc.toNat < 8191 →
    ∃ u, exec (.jpz t) s = .next u ∧
      (u = { s with pc := t } ∨ (u = { s with pc := s.pc + 1 } ∧ exec (.jnz t) u = .next { s with pc := t }))

/-! ### Streams, reset and the host -/

/-- spec/10_state.md section 6, the input stream; the end is sticky along every run. -/
def Obligations.InGetConsumesOneByteOrMeetsAStickyEnd : Prop :=
  (∀ s : State,
    (∀ h : s.inPos < s.input.length, s.inGet = (.byte s.input[s.inPos], { s with inPos := s.inPos + 1 })) ∧
    (s.input.length ≤ s.inPos → s.inGet = (.eos, s))) ∧
  (∀ (s t : State) (k : Nat), s.input.length ≤ s.inPos → s.after k = some t → t.inGet = (.eos, t)) ∧
  State.reset.inPos = 0

/-- R23: the values the rule states. What it leaves to the host (the image, the input, `exit_on_eof`) `applyReset` keeps;
the model's own values for them in `State.reset` are log entries 2 to 4 and are not claimed here. -/
def Obligations.ResetLeavesTheStatedValues : Prop :=
  (∀ s : State, s.applyReset.pc = 0 ∧ s.applyReset.dp = 0 ∧ (∀ a, s.applyReset.memRead a = 0) ∧
    s.applyReset.inPos = 0 ∧ s.applyReset.out = [] ∧ statusCode s.applyReset.status = 0 ∧
    SameParameters s s.applyReset) ∧
  State.reset.pc = 0 ∧ State.reset.dp = 0 ∧ (∀ a, State.reset.memRead a = 0) ∧
  State.reset.inPos = 0 ∧ State.reset.out = [] ∧ statusCode State.reset.status = 0

/-- spec/70_reset_and_hazards.md section 1: reset in any state, running or stopped, and the first step after it executes
the word at index 0. -/
def Obligations.FirstStepAfterResetRunsWordZero : Prop :=
  ∀ s : State, step s.applyReset = exec (decode (s.fetch 0)) s.applyReset ∧
    (s.fetch 0 = 0 → step s.applyReset = .next { s.applyReset with status := .haltEnd })

/-- spec/70_reset_and_hazards.md section 2 and spec/30_encoding.md section 5: an image that fits is loaded from index 0, then
sentinels to the end; one that does not is refused. That an image is loaded whether or not it ends in `0x0000` is the model's
choice (log entry 19; R118 has images that do). -/
def Obligations.BootLoadsTheImageThenSentinels : Prop :=
  ∀ (s : State) (h : HostSetup),
    (h.image.length ≤ 8192 → ∃ u, s.boot h = .ok u ∧ (∀ i : CodeIndex, u.fetch i = h.image.getD i.toNat 0) ∧
      u.exitOnEof = h.exitOnEof ∧ u.input = h.input ∧ u.pc = 0 ∧ u.dp = 0 ∧ (∀ a, u.memRead a = 0) ∧
      u.inPos = 0 ∧ u.out = [] ∧ u.status = .running) ∧
    (8192 < h.image.length → s.boot h = .error .imageTooLong)

/-- spec/60_exceptions.md section 8 and spec/10_state.md sections 7 and 9: while running the host may neither change image or
configuration nor read the tape; once stopped it sets `CFG` bit 0 and words of the image, changing nothing else, and reads
all of the final state; the status port shows the code. That it shows `pc` and `dp` while running too is the model's choice
(log entry 21). -/
def Obligations.HostWaitsForTheStop : Prop :=
  ∀ s : State,
    (s.status = .running → (∀ i w, s.imemLoad i w = .error .whileRunning) ∧
      (∀ f, s.configure f = .error .whileRunning) ∧ (∀ a, s.tapePeek a = .error .whileRunning) ∧ s.result = none) ∧
    (s.status ≠ .running → (∀ a, s.tapePeek a = .ok (s.memRead a)) ∧
      (∀ f, ∃ t, s.configure f = .ok t ∧ t.cfg.toNat = f.toNat ∧ { t with exitOnEof := s.exitOnEof } = s) ∧
      (∀ i w, ∃ t, s.imemLoad i w = .ok t ∧ t.fetch i = w ∧ (∀ j, j ≠ i → t.fetch j = s.fetch j) ∧
        { t with imem := s.imem } = s) ∧
      ∃ r, s.result = some r ∧ r.status = s.status ∧ r.out = s.out ∧ r.pc = s.pc ∧ r.dp = s.dp ∧
        r.tape = s.tape ∧ r.inPos = s.inPos) ∧
    (s.statusPort.status.toNat = 0 ↔ s.status = .running) ∧ (s.statusPort.status.toNat = 1 ↔ s.status = .haltEnd) ∧
    (s.statusPort.status.toNat = 2 ↔ s.status = .haltEof) ∧
    (s.statusPort.status.toNat = 3 ↔ s.status = .faultPcOverflow) ∧ s.statusPort.pc = s.pc ∧ s.statusPort.dp = s.dp

/-! ### The toolchain (spec/30_encoding.md sections 5 and 6) -/

/-- Section 5, run-length merging: a run of one operator is one word whose operand is the length modulo 8192. -/
def Obligations.RunAssemblesToItsLengthModulo8192 : Prop :=
  ∀ n : Nat, 0 < n →
    assemble (List.replicate n '+') = .ok [BitVec.ofNat 16 (n % 8192 * 8 + 0), 0] ∧
    assemble (List.replicate n '-') = .ok [BitVec.ofNat 16 (n % 8192 * 8 + 1), 0] ∧
    assemble (List.replicate n '<') = .ok [BitVec.ofNat 16 (n % 8192 * 8 + 2), 0] ∧
    assemble (List.replicate n '>') = .ok [BitVec.ofNat 16 (n % 8192 * 8 + 3), 0]

/-- Section 5, termination and length: one word per element, the sentinel last, never longer than the source plus one. -/
def Obligations.AssembledImageHasOneWordPerElement : Prop :=
  ∀ (src : List Char) (ws : List Word), assemble src = .ok ws →
    ws.length = ((elements src).filter (· ≠ .comment)).length + 1 ∧ ws.length ≤ src.length + 1 ∧
    ws.length ≤ 8192 ∧ ws.getLast? = some 0

/-- Section 5, matched brackets, and spec/90_conflicts.md C1: every JPZ of an assembled image names the index after a JNZ
that names the JPZ back. -/
def Obligations.AssembledBracketsNameEachOther : Prop :=
  ∀ (src : List Char) (ws : List Word) (j : Nat) (t : Operand), assemble src = .ok ws →
    ws[j]? = some (encode (.jpz t)) →
    j + 1 < t.toNat ∧ ws[t.toNat - 1]? = some (encode (.jnz (BitVec.ofNat 13 j)))

/-- Section 6: one line per word up to the sentinel, in index order, with the word's name and operand. What is printed for
the unused operand of GET and PUT, and where no sentinel stands, is the model's own (log entries 11 and 12). -/
def Obligations.DisassemblerListsTheWordsUpToTheSentinel : Prop :=
  ∀ ws : List Word,
    (disassemble ws).length = (ws.takeWhile (· ≠ 0)).length ∧
    ∀ (k : Nat) (l : ListingLine), (disassemble ws)[k]? = some l →
      ∃ w, ws[k]? = some w ∧ w ≠ 0 ∧ l.operand = w.toNat / 8 ∧
        some l.mnemonic = ["ADD", "SUB", "LFT", "RGT", "JPZ", "JNZ", "GET", "PUT"][w.toNat % 8]?
end

