-- ==== Sys2Proof/Laws/Arithmetic.lean ====
section
/-! SUPPORT. The exact-then-modulo arithmetic of the operands as wrapping bit-vector arithmetic (spec/40_cell_arithmetic.md
R72: both are the same ring). -/

namespace Sys2Proof.Machine

/-- ADD as a wrapping sum with `n mod 256`. -/
theorem cellPlus_eq (c : Byte) (n : Operand) : cellPlus c n = c + n.setWidth 8 := by
  apply BitVec.eq_of_toNat_eq
  simp [cellPlus, BitVec.toNat_add, BitVec.toNat_setWidth]

/-- SUB as a wrapping difference with `n mod 256`. -/
theorem cellMinus_eq (c : Byte) (n : Operand) : cellMinus c n = c - n.setWidth 8 := by
  apply BitVec.eq_of_toNat_eq
  have hc := c.isLt
  simp only [cellMinus, BitVec.toNat_ofInt, BitVec.toNat_sub, BitVec.toNat_setWidth]
  omega

/-- RGT as a wrapping sum with the zero-extended operand. -/
theorem pointerRight_eq (d : CellAddr) (n : Operand) : pointerRight d n = d + n.setWidth 16 := by
  apply BitVec.eq_of_toNat_eq
  simp [pointerRight, BitVec.toNat_add, BitVec.toNat_setWidth]

/-- LFT as a wrapping difference with the zero-extended operand. -/
theorem pointerLeft_eq (d : CellAddr) (n : Operand) : pointerLeft d n = d - n.setWidth 16 := by
  apply BitVec.eq_of_toNat_eq
  have hd := d.isLt
  simp only [pointerLeft, BitVec.toNat_ofInt, BitVec.toNat_sub, BitVec.toNat_setWidth]
  omega

end Sys2Proof.Machine
end

