-- ==== Sys2Proof/Laws/Assembler.lean ====
section
/-! SUPPORT. What assembling can answer, and what one element adds. -/

namespace Sys2Proof.Machine

/-- An image that was assembled: no bracket is open, the sentinel was put last, and it fits. -/
theorem assemble_ok {src : List Char} {ws : List Word} (h : assemble src = .ok ws) :
    (assembleElements src).stack = [] ∧ ws = (assembleElements src).code ++ [Config.sentinelWord] ∧
      ws.length ≤ Config.imemWords := by
  unfold assemble at h
  simp only at h
  split at h
  · cases h
  · next hs =>
    split at h
    · cases h
    · next hl =>
      cases h
      exact ⟨not_not.mp hs, rfl, Nat.le_of_not_lt hl⟩

/-- The opcode bits of a word the assembler made. -/
theorem asmWord_mod (n : Nat) {opc : Nat} (h : opc < 8) : (asmWord n opc).toNat % 8 = opc := by
  simp only [asmWord, BitVec.toNat_ofNat]
  omega

/-- Every element but a comment adds one word. -/
theorem AsmState.element_length (a : AsmState) (e : Element) :
    (a.element e).code.length = a.code.length + if e = .comment then 0 else 1 := by
  cases e <;> simp [AsmState.element, AsmState.emit, AsmState.openAt, AsmState.close]
  split <;> simp

end Sys2Proof.Machine
end

