-- ==== Sys2Proof/Laws/Encoding.lean ====
section
/-! SUPPORT. The fields of a word put together by `joinWord` (spec/30_encoding.md R46), and the opcode map both ways. -/

namespace Sys2Proof

@[simp] theorem opcodeOfField_opcodeBits (op : Opcode) : opcodeOfField (opcodeBits op) = op := by
  cases op <;> rfl

/-- Every bit of a word put together. -/
theorem joinWord_getLsbD (n : Operand) (op : Opcode) (i : Nat) :
    (joinWord n op).getLsbD i = if i < 3 then (opcodeBits op).getLsbD i else n.getLsbD (i - 3) :=
  BitVec.getLsbD_append

@[simp] theorem opcodeField_joinWord (n : Operand) (op : Opcode) : opcodeField (joinWord n op) = opcodeBits op := by
  apply BitVec.eq_of_getLsbD_eq
  intro i hi
  have : i < 3 := hi
  simp [opcodeField, joinWord_getLsbD, this]

@[simp] theorem operandField_joinWord (n : Operand) (op : Opcode) : operandField (joinWord n op) = n := by
  apply BitVec.eq_of_getLsbD_eq
  intro i hi
  have : i < 13 := hi
  simp [operandField, joinWord_getLsbD, this]

/-- A word is its two fields put together. -/
theorem joinWord_fields (w : Word) (op : Opcode) (h : opcodeField w = opcodeBits op) :
    joinWord (operandField w) op = w := by
  apply BitVec.eq_of_getLsbD_eq
  intro i hi
  have hf : ∀ j, j < 3 → (opcodeBits op).getLsbD j = w.getLsbD j := by
    intro j hj; rw [← h]; simp [opcodeField, hj]
  by_cases h3 : i < 3
  · rw [joinWord_getLsbD, if_pos h3, hf i h3]
  · have h13 : i - 3 < 13 := by omega
    have h16 : 3 + (i - 3) = i := by omega
    simp [joinWord_getLsbD, h3, operandField, h13, h16]

/-- Only the zero word is the sentinel; the opcode of a word put together is never lost to it but for `ADD 0`. -/
theorem joinWord_ne_sentinel {n : Operand} {op : Opcode} (h : op ≠ .add ∨ n ≠ 0) :
    joinWord n op ≠ Config.sentinelWord := by
  intro e
  have hop : opcodeBits op = 0 := by rw [← opcodeField_joinWord n op, e]; rfl
  have hn : n = 0 := by rw [← operandField_joinWord n op, e]; rfl
  rcases h with h | h
  · cases op <;> first | exact h rfl | exact absurd hop (by decide)
  · exact h hn

end Sys2Proof
end

