-- ==== Sys2Proof/Laws/Memory.lean ====
section
/-! SUPPORT. The laws of the sparse memories: a read after a write, and the canonical form kept by every operation. -/

namespace Sys2Proof.Machine.Memory

variable {w : Nat}

@[simp] theorem read_nil (a : Nat) : read ([] : List (Nat × BitVec w)) a = 0 := rfl

@[simp] theorem read_cons (k : Nat) (v : BitVec w) (m : List (Nat × BitVec w)) (a : Nat) :
    read ((k, v) :: m) a = if k = a then v else read m a := rfl

theorem read_erase (m : List (Nat × BitVec w)) (a b : Nat) :
    read (erase m a) b = if b = a then 0 else read m b := by
  induction m with
  | nil => simp [erase]
  | cons c m ih =>
    obtain ⟨k, v⟩ := c
    unfold erase at ih ⊢
    by_cases hk : k = a
    · subst hk
      by_cases hb : b = k
      · subst hb; simpa using ih
      · simp [ih, hb, Ne.symm hb]
    · by_cases hb : b = a
      · subst hb; simp [hk, ih]
      · simp [hk, hb, ih]

theorem read_insert (m : List (Nat × BitVec w)) (a : Nat) (v : BitVec w) (b : Nat)
    (h : read m a = 0 ∧ ∀ c ∈ m, c.1 ≠ a) :
    read (insert m a v) b = if b = a then v else read m b := by
  induction m with
  | nil => simp [insert, @eq_comm _ a b]
  | cons c m ih =>
    obtain ⟨k, x⟩ := c
    have hk : k ≠ a := h.2 (k, x) (by simp)
    have hm : read m a = 0 := by simpa [hk] using h.1
    unfold insert
    split
    · simp [@eq_comm _ a b]
    · rw [read_cons, ih ⟨hm, fun c hc => h.2 c (by simp [hc])⟩, read_cons]
      by_cases hb : b = a
      · subst hb; simp [hk]
      · simp [hb]

theorem erase_ne (m : List (Nat × BitVec w)) (a : Nat) : ∀ c ∈ erase m a, c.1 ≠ a := by
  intro c hc; simpa [erase] using (List.mem_filter.mp hc).2

/-- A read after a write, at every address and for every list, canonical or not. -/
theorem read_write (m : List (Nat × BitVec w)) (a : Nat) (v : BitVec w) (b : Nat) :
    read (write m a v) b = if b = a then v else read m b := by
  unfold write
  split
  · next h => rw [read_erase, h]
  · rw [read_insert _ _ _ _ ⟨by simp [read_erase], erase_ne m a⟩, read_erase]
    split <;> rfl

@[simp] theorem read_write_same (m : List (Nat × BitVec w)) (a : Nat) (v : BitVec w) :
    read (write m a v) a = v := by simp [read_write]

theorem read_write_other (m : List (Nat × BitVec w)) {a b : Nat} (v : BitVec w) (h : b ≠ a) :
    read (write m a v) b = read m b := by simp [read_write, h]

/-! ### The canonical form -/

theorem wf_erase {size : Nat} {m : List (Nat × BitVec w)} (a : Nat) (h : wf size m) : wf size (erase m a) :=
  ⟨h.1.filter _, fun c hc => h.2 c (List.mem_filter.mp hc).1⟩

theorem mem_insert {m : List (Nat × BitVec w)} {a : Nat} {v : BitVec w} {c : Nat × BitVec w}
    (h : c ∈ insert m a v) : c = (a, v) ∨ c ∈ m := by
  induction m with
  | nil => simpa [insert] using h
  | cons d m ih =>
    unfold insert at h
    split at h
    · simpa using h
    · rcases List.mem_cons.mp h with rfl | h
      · exact .inr (by simp)
      · exact (ih h).imp_right fun h => by simp [h]

theorem wf_insert {size : Nat} {m : List (Nat × BitVec w)} {a : Nat} {v : BitVec w} (ha : a < size) (hv : v ≠ 0)
    (hne : ∀ c ∈ m, c.1 ≠ a) (h : wf size m) : wf size (insert m a v) := by
  refine ⟨?_, fun c hc => (mem_insert hc).elim (fun e => by subst e; exact ⟨ha, hv⟩) (h.2 c)⟩
  have hp := h.1
  clear h
  induction m with
  | nil => simp [insert]
  | cons d m ih =>
    obtain ⟨k, x⟩ := d
    obtain ⟨hk, hm⟩ := List.pairwise_cons.mp hp
    unfold insert
    split
    · next hlt =>
      refine List.pairwise_cons.mpr ⟨fun c hc => ?_, hp⟩
      rcases List.mem_cons.mp hc with rfl | hc
      · exact hlt
      · exact lt_trans hlt (hk c hc)
    · next hge =>
      refine List.pairwise_cons.mpr ⟨fun c hc => ?_, ih (fun c hc => hne c (by simp [hc])) hm⟩
      rcases mem_insert hc with rfl | hc
      · exact lt_of_le_of_ne (not_lt.mp hge) (hne (k, x) (by simp))
      · exact hk c hc

/-- Every store inside the space keeps the canonical form. -/
theorem wf_write {size : Nat} {m : List (Nat × BitVec w)} {a : Nat} (v : BitVec w) (ha : a < size) (h : wf size m) :
    wf size (write m a v) := by
  unfold write
  split
  · exact wf_erase a h
  · next hv => exact wf_insert ha hv (erase_ne m a) (wf_erase a h)

theorem ofList_bounds (i : Nat) (ws : List (BitVec w)) :
    ∀ c ∈ ofList i ws, i ≤ c.1 ∧ c.1 < i + ws.length ∧ c.2 ≠ 0 := by
  induction ws generalizing i with
  | nil => simp [ofList]
  | cons v ws ih =>
    intro c hc
    unfold ofList at hc
    split at hc
    · obtain ⟨h1, h2, h3⟩ := ih (i + 1) c hc; exact ⟨by omega, by simp only [List.length_cons]; omega, h3⟩
    · next hv =>
      rcases List.mem_cons.mp hc with rfl | hc
      · exact ⟨le_refl _, by simp, hv⟩
      · obtain ⟨h1, h2, h3⟩ := ih (i + 1) c hc; exact ⟨by omega, by simp only [List.length_cons]; omega, h3⟩

/-- A loaded image is canonical. -/
theorem wf_ofList {size : Nat} (i : Nat) (ws : List (BitVec w)) (h : i + ws.length ≤ size) : wf size (ofList i ws) := by
  refine ⟨?_, fun c hc => ⟨by have := ofList_bounds i ws c hc; omega, (ofList_bounds i ws c hc).2.2⟩⟩
  clear h
  induction ws generalizing i with
  | nil => simp [ofList]
  | cons v ws ih =>
    unfold ofList
    split
    · exact ih (i + 1)
    · exact List.pairwise_cons.mpr ⟨fun c hc => (ofList_bounds (i + 1) ws c hc).1, ih (i + 1)⟩

theorem read_eq_zero {m : List (Nat × BitVec w)} {a : Nat} (h : ∀ c ∈ m, c.1 ≠ a) : read m a = 0 := by
  induction m with
  | nil => rfl
  | cons c m ih =>
    obtain ⟨k, x⟩ := c
    have hk : k ≠ a := h (k, x) (by simp)
    simp [hk, ih fun c hc => h c (by simp [hc])]

/-- A loaded image holds its words from index `i`, and 0 elsewhere. -/
theorem read_ofList (i : Nat) (ws : List (BitVec w)) (a : Nat) :
    read (ofList i ws) a = if i ≤ a then ws.getD (a - i) 0 else 0 := by
  induction ws generalizing i with
  | nil => simp [ofList]
  | cons v ws ih =>
    have shift : i ≤ a → a ≠ i → (v :: ws).getD (a - i) 0 = ws.getD (a - (i + 1)) 0 := by
      intro h1 h2
      obtain ⟨d, rfl⟩ : ∃ d, a = i + 1 + d := ⟨a - (i + 1), by omega⟩
      have : i + 1 + d - i = d + 1 := by omega
      simp [this]
    unfold ofList
    by_cases ha : a = i
    · subst ha
      split
      · next hv => simp [ih, hv]
      · simp
    · by_cases hle : i ≤ a
      · have h1 : i + 1 ≤ a := by omega
        rw [if_pos hle, shift hle ha]
        split
        · rw [ih, if_pos h1]
        · rw [read_cons, if_neg (by omega), ih, if_pos h1]
      · have h1 : ¬ i + 1 ≤ a := by omega
        rw [if_neg hle]
        split
        · rw [ih, if_neg h1]
        · rw [read_cons, if_neg (by omega), ih, if_neg h1]

/-- Equal memories are equal data: two canonical lists that read alike are the same list. -/
theorem ext_of_wf {size : Nat} {m m' : List (Nat × BitVec w)} (h : wf size m) (h' : wf size m')
    (hr : ∀ a, read m a = read m' a) : m = m' := by
  have head_ge : ∀ {k x} {m : List (Nat × BitVec w)} {c}, wf size ((k, x) :: m) → c ∈ (k, x) :: m → k ≤ c.1 := by
    intro k x m c hw hc
    rcases List.mem_cons.mp hc with rfl | hc
    · exact le_refl _
    · exact le_of_lt ((List.pairwise_cons.mp hw.1).1 c hc)
  have tail : ∀ {c} {m : List (Nat × BitVec w)}, wf size (c :: m) → wf size m := fun hw =>
    ⟨(List.pairwise_cons.mp hw.1).2, fun d hd => hw.2 d (by simp [hd])⟩
  induction m generalizing m' with
  | nil =>
    cases m' with
    | nil => rfl
    | cons c m' =>
      obtain ⟨k, x⟩ := c
      have hx := (h'.2 (k, x) (by simp)).2
      exact absurd (by simpa using (hr k).symm) hx
  | cons c m ih =>
    obtain ⟨k, x⟩ := c
    have hx := (h.2 (k, x) (by simp)).2
    cases m' with
    | nil => exact absurd (by simpa using hr k) hx
    | cons c' m' =>
      obtain ⟨k', x'⟩ := c'
      have hx' := (h'.2 (k', x') (by simp)).2
      have hk : k = k' := by
        rcases lt_trichotomy k k' with hlt | he | hlt
        · have := read_eq_zero (m := (k', x') :: m') (a := k) fun c hc => by have := head_ge h' hc; omega
          rw [← hr k] at this
          exact absurd (by simpa using this) hx
        · exact he
        · have := read_eq_zero (m := (k, x) :: m) (a := k') fun c hc => by have := head_ge h hc; omega
          rw [hr k'] at this
          exact absurd (by simpa using this) hx'
      subst hk
      have hxx : x = x' := by simpa using hr k
      subst hxx
      rw [ih (tail h) (tail h') fun a => ?_]
      by_cases ha : k = a
      · subst ha
        rw [read_eq_zero fun c hc => Nat.ne_of_gt ((List.pairwise_cons.mp h.1).1 c hc),
          read_eq_zero fun c hc => Nat.ne_of_gt ((List.pairwise_cons.mp h'.1).1 c hc)]
      · simpa [ha] using hr a

end Sys2Proof.Machine.Memory
end

