-- ==== Sys2Proof/Laws/State.lean ====
section
/-! SUPPORT. One lemma per field per update of the state, so that no proof unfolds a record update. -/

namespace Sys2Proof.Machine.State

variable (s : State)

/-! ### setPc -/

@[simp] theorem setPc_pc (t : CodeIndex) : (s.setPc t).pc = t := rfl
@[simp] theorem setPc_dp (t : CodeIndex) : (s.setPc t).dp = s.dp := rfl
@[simp] theorem setPc_tape (t : CodeIndex) : (s.setPc t).tape = s.tape := rfl
@[simp] theorem setPc_inPos (t : CodeIndex) : (s.setPc t).inPos = s.inPos := rfl
@[simp] theorem setPc_out (t : CodeIndex) : (s.setPc t).out = s.out := rfl
@[simp] theorem setPc_status (t : CodeIndex) : (s.setPc t).status = s.status := rfl
@[simp] theorem setPc_imem (t : CodeIndex) : (s.setPc t).imem = s.imem := rfl
@[simp] theorem setPc_input (t : CodeIndex) : (s.setPc t).input = s.input := rfl
@[simp] theorem setPc_exitOnEof (t : CodeIndex) : (s.setPc t).exitOnEof = s.exitOnEof := rfl

/-! ### setDp -/

@[simp] theorem setDp_pc (d : CellAddr) : (s.setDp d).pc = s.pc := rfl
@[simp] theorem setDp_dp (d : CellAddr) : (s.setDp d).dp = d := rfl
@[simp] theorem setDp_tape (d : CellAddr) : (s.setDp d).tape = s.tape := rfl
@[simp] theorem setDp_inPos (d : CellAddr) : (s.setDp d).inPos = s.inPos := rfl
@[simp] theorem setDp_out (d : CellAddr) : (s.setDp d).out = s.out := rfl
@[simp] theorem setDp_status (d : CellAddr) : (s.setDp d).status = s.status := rfl
@[simp] theorem setDp_imem (d : CellAddr) : (s.setDp d).imem = s.imem := rfl
@[simp] theorem setDp_input (d : CellAddr) : (s.setDp d).input = s.input := rfl
@[simp] theorem setDp_exitOnEof (d : CellAddr) : (s.setDp d).exitOnEof = s.exitOnEof := rfl

/-! ### setStatus -/

@[simp] theorem setStatus_pc (c : Status) : (s.setStatus c).pc = s.pc := rfl
@[simp] theorem setStatus_dp (c : Status) : (s.setStatus c).dp = s.dp := rfl
@[simp] theorem setStatus_tape (c : Status) : (s.setStatus c).tape = s.tape := rfl
@[simp] theorem setStatus_inPos (c : Status) : (s.setStatus c).inPos = s.inPos := rfl
@[simp] theorem setStatus_out (c : Status) : (s.setStatus c).out = s.out := rfl
@[simp] theorem setStatus_status (c : Status) : (s.setStatus c).status = c := rfl
@[simp] theorem setStatus_imem (c : Status) : (s.setStatus c).imem = s.imem := rfl
@[simp] theorem setStatus_input (c : Status) : (s.setStatus c).input = s.input := rfl
@[simp] theorem setStatus_exitOnEof (c : Status) : (s.setStatus c).exitOnEof = s.exitOnEof := rfl

/-! ### memWrite -/

@[simp] theorem memWrite_pc (a : CellAddr) (v : Byte) : (s.memWrite a v).pc = s.pc := rfl
@[simp] theorem memWrite_dp (a : CellAddr) (v : Byte) : (s.memWrite a v).dp = s.dp := rfl
@[simp] theorem memWrite_tape (a : CellAddr) (v : Byte) : (s.memWrite a v).tape = Memory.write s.tape a.toNat v := rfl
@[simp] theorem memWrite_inPos (a : CellAddr) (v : Byte) : (s.memWrite a v).inPos = s.inPos := rfl
@[simp] theorem memWrite_out (a : CellAddr) (v : Byte) : (s.memWrite a v).out = s.out := rfl
@[simp] theorem memWrite_status (a : CellAddr) (v : Byte) : (s.memWrite a v).status = s.status := rfl
@[simp] theorem memWrite_imem (a : CellAddr) (v : Byte) : (s.memWrite a v).imem = s.imem := rfl
@[simp] theorem memWrite_input (a : CellAddr) (v : Byte) : (s.memWrite a v).input = s.input := rfl
@[simp] theorem memWrite_exitOnEof (a : CellAddr) (v : Byte) : (s.memWrite a v).exitOnEof = s.exitOnEof := rfl

/-! ### loadWord -/

@[simp] theorem loadWord_pc (i : CodeIndex) (w : Word) : (s.loadWord i w).pc = s.pc := rfl
@[simp] theorem loadWord_dp (i : CodeIndex) (w : Word) : (s.loadWord i w).dp = s.dp := rfl
@[simp] theorem loadWord_tape (i : CodeIndex) (w : Word) : (s.loadWord i w).tape = s.tape := rfl
@[simp] theorem loadWord_inPos (i : CodeIndex) (w : Word) : (s.loadWord i w).inPos = s.inPos := rfl
@[simp] theorem loadWord_out (i : CodeIndex) (w : Word) : (s.loadWord i w).out = s.out := rfl
@[simp] theorem loadWord_status (i : CodeIndex) (w : Word) : (s.loadWord i w).status = s.status := rfl
@[simp] theorem loadWord_imem (i : CodeIndex) (w : Word) : (s.loadWord i w).imem = Memory.write s.imem i.toNat w := rfl
@[simp] theorem loadWord_input (i : CodeIndex) (w : Word) : (s.loadWord i w).input = s.input := rfl
@[simp] theorem loadWord_exitOnEof (i : CodeIndex) (w : Word) : (s.loadWord i w).exitOnEof = s.exitOnEof := rfl

/-! ### outPut -/

@[simp] theorem outPut_pc (b : Byte) : (s.outPut b).pc = s.pc := rfl
@[simp] theorem outPut_dp (b : Byte) : (s.outPut b).dp = s.dp := rfl
@[simp] theorem outPut_tape (b : Byte) : (s.outPut b).tape = s.tape := rfl
@[simp] theorem outPut_inPos (b : Byte) : (s.outPut b).inPos = s.inPos := rfl
@[simp] theorem outPut_out (b : Byte) : (s.outPut b).out = s.out ++ [b] := rfl
@[simp] theorem outPut_status (b : Byte) : (s.outPut b).status = s.status := rfl
@[simp] theorem outPut_imem (b : Byte) : (s.outPut b).imem = s.imem := rfl
@[simp] theorem outPut_input (b : Byte) : (s.outPut b).input = s.input := rfl
@[simp] theorem outPut_exitOnEof (b : Byte) : (s.outPut b).exitOnEof = s.exitOnEof := rfl

/-! ### Reads after an update of something else -/

@[simp] theorem setPc_memRead (t : CodeIndex) (b' : CellAddr) : (s.setPc t).memRead b' = s.memRead b' := rfl
@[simp] theorem setPc_fetch (t : CodeIndex) (j : CodeIndex) : (s.setPc t).fetch j = s.fetch j := rfl
@[simp] theorem setDp_memRead (d : CellAddr) (b' : CellAddr) : (s.setDp d).memRead b' = s.memRead b' := rfl
@[simp] theorem setDp_fetch (d : CellAddr) (j : CodeIndex) : (s.setDp d).fetch j = s.fetch j := rfl
@[simp] theorem setStatus_memRead (c : Status) (b' : CellAddr) : (s.setStatus c).memRead b' = s.memRead b' := rfl
@[simp] theorem setStatus_fetch (c : Status) (j : CodeIndex) : (s.setStatus c).fetch j = s.fetch j := rfl
@[simp] theorem memWrite_fetch (a : CellAddr) (v : Byte) (j : CodeIndex) : (s.memWrite a v).fetch j = s.fetch j := rfl
@[simp] theorem loadWord_memRead (i : CodeIndex) (w : Word) (b' : CellAddr) : (s.loadWord i w).memRead b' = s.memRead b' := rfl
@[simp] theorem outPut_memRead (b : Byte) (b' : CellAddr) : (s.outPut b).memRead b' = s.memRead b' := rfl
@[simp] theorem outPut_fetch (b : Byte) (j : CodeIndex) : (s.outPut b).fetch j = s.fetch j := rfl

/-! ### stop, raisePcOverflow and reset in terms of these -/

@[simp] theorem stop_eq (c : Status) : s.stop c = s.setStatus c := rfl

@[simp] theorem raisePcOverflow_eq : s.raisePcOverflow = s.setStatus .faultPcOverflow := rfl

@[simp] theorem applyReset_pc : s.applyReset.pc = 0 := rfl
@[simp] theorem applyReset_dp : s.applyReset.dp = 0 := rfl
@[simp] theorem applyReset_tape : s.applyReset.tape = [] := rfl
@[simp] theorem applyReset_inPos : s.applyReset.inPos = 0 := rfl
@[simp] theorem applyReset_out : s.applyReset.out = [] := rfl
@[simp] theorem applyReset_status : s.applyReset.status = .running := rfl
@[simp] theorem applyReset_imem : s.applyReset.imem = s.imem := rfl
@[simp] theorem applyReset_input : s.applyReset.input = s.input := rfl
@[simp] theorem applyReset_exitOnEof : s.applyReset.exitOnEof = s.exitOnEof := rfl

end Sys2Proof.Machine.State
end

