-- ==== Sys2Proof/Laws/Ops.lean ====
section
/-! SUPPORT. For each shared operation, everything it can do, said once. -/

namespace Sys2Proof.Machine

variable (s : State)

/-! ### The current cell -/

/-- A tape read after a tape write (R32). -/
theorem State.memRead_memWrite (a b : CellAddr) (v : Byte) :
    (s.memWrite a v).memRead b = if b = a then v else s.memRead b := by
  simp [State.memRead, State.memWrite, Memory.read_write, BitVec.toNat_inj]

theorem State.memRead_memWrite_other {a b : CellAddr} (v : Byte) (h : b ≠ a) :
    (s.memWrite a v).memRead b = s.memRead b := by simp [State.memRead_memWrite, h]

/-- A fetch after a load (R31). -/
theorem State.fetch_loadWord (i j : CodeIndex) (w : Word) :
    (s.loadWord i w).fetch j = if j = i then w else s.fetch j := by
  simp [State.fetch, State.loadWord, Memory.read_write, BitVec.toNat_inj]

/-! ### advance (R82) -/

/-- The two things `advance` can do. -/
theorem State.advance_cases :
    (s.pc = Config.lastIndex ∧ s.advance = s.setStatus .faultPcOverflow) ∨
      (s.pc ≠ Config.lastIndex ∧ s.advance = s.setPc (s.pc + 1)) := by
  unfold State.advance
  split
  · next h => exact .inl ⟨h, rfl⟩
  · next h => exact .inr ⟨h, rfl⟩

@[simp] theorem State.advance_dp : s.advance.dp = s.dp := by
  rcases s.advance_cases with ⟨-, h⟩ | ⟨-, h⟩ <;> rw [h] <;> rfl

@[simp] theorem State.advance_tape : s.advance.tape = s.tape := by
  rcases s.advance_cases with ⟨-, h⟩ | ⟨-, h⟩ <;> rw [h] <;> rfl

@[simp] theorem State.advance_inPos : s.advance.inPos = s.inPos := by
  rcases s.advance_cases with ⟨-, h⟩ | ⟨-, h⟩ <;> rw [h] <;> rfl

@[simp] theorem State.advance_out : s.advance.out = s.out := by
  rcases s.advance_cases with ⟨-, h⟩ | ⟨-, h⟩ <;> rw [h] <;> rfl

@[simp] theorem State.advance_imem : s.advance.imem = s.imem := by
  rcases s.advance_cases with ⟨-, h⟩ | ⟨-, h⟩ <;> rw [h] <;> rfl

@[simp] theorem State.advance_input : s.advance.input = s.input := by
  rcases s.advance_cases with ⟨-, h⟩ | ⟨-, h⟩ <;> rw [h] <;> rfl

@[simp] theorem State.advance_exitOnEof : s.advance.exitOnEof = s.exitOnEof := by
  rcases s.advance_cases with ⟨-, h⟩ | ⟨-, h⟩ <;> rw [h] <;> rfl

@[simp] theorem State.advance_memRead (a : CellAddr) : s.advance.memRead a = s.memRead a := by
  simp [State.memRead]

@[simp] theorem State.advance_fetch (i : CodeIndex) : s.advance.fetch i = s.fetch i := by
  simp [State.fetch]

/-! ### InGet (R15) -/

/-- The two things `inGet` can do. -/
theorem State.inGet_cases :
    (∃ b, s.input[s.inPos]? = some b ∧ s.inGet = (.byte b, { s with inPos := s.inPos + 1 })) ∨
      (s.input[s.inPos]? = none ∧ s.inGet = (.eos, s)) := by
  unfold State.inGet
  split
  · next b h => exact .inl ⟨b, h, rfl⟩
  · next h => exact .inr ⟨h, rfl⟩

/-! ### Steps (R80) -/

/-- What a step that answers a next state was. -/
theorem step_next {t : State} (h : step s = .next t) :
    s.status = .running ∧ exec s.instrAtPc s = .next t := by
  unfold step at h
  split at h
  · next hr => exact ⟨by simpa [State.isRunning] using hr, h⟩
  · simp [State.noStep] at h

/-- A step in a running state. -/
theorem step_running (h : s.status = .running) : step s = exec s.instrAtPc s := by
  simp [step, State.isRunning, h]

/-- A step in a stopped state. -/
theorem step_stopped (h : s.status ≠ .running) : step s = .fault (.noStep s.status) := by
  simp [step, State.isRunning, State.noStep, h]

/-! ### What each meaning is, over the shared operations -/

theorem exec_sentinel : exec .sentinel s = .next (s.setStatus .haltEnd) := rfl

theorem exec_add (n : Operand) :
    exec (.add n) s = .next (s.memWrite s.dp (cellPlus (s.memRead s.dp) n)).advance := rfl

theorem exec_sub (n : Operand) :
    exec (.sub n) s = .next (s.memWrite s.dp (cellMinus (s.memRead s.dp) n)).advance := rfl

theorem exec_lft (n : Operand) : exec (.lft n) s = .next (s.setDp (pointerLeft s.dp n)).advance := rfl

theorem exec_rgt (n : Operand) : exec (.rgt n) s = .next (s.setDp (pointerRight s.dp n)).advance := rfl

theorem exec_jpz (t : Operand) :
    exec (.jpz t) s = .next (if s.memRead s.dp = 0 then s.setPc t else s.advance) := by
  simp [exec, execJpz, State.jumpIf, cellIsZero, jumpTarget]

theorem exec_jnz (t : Operand) :
    exec (.jnz t) s = .next (if s.memRead s.dp = 0 then s.advance else s.setPc t) := by
  by_cases h : s.memRead s.dp = 0 <;> simp [exec, execJnz, State.jumpIf, cellIsZero, jumpTarget, h]

theorem exec_get_byte {b : Byte} (h : s.input[s.inPos]? = some b) :
    exec .get s = .next ({ s with inPos := s.inPos + 1 }.memWrite s.dp b).advance := by
  simp [exec, execGet, State.inGet, h]

theorem exec_get_eos_stop (h : s.input[s.inPos]? = none) (hf : s.exitOnEof = true) :
    exec .get s = .next (s.setStatus .haltEof) := by
  simp [exec, execGet, State.inGet, h, hf]

theorem exec_get_eos_zero (h : s.input[s.inPos]? = none) (hf : s.exitOnEof = false) :
    exec .get s = .next (s.memWrite s.dp 0).advance := by
  simp [exec, execGet, State.inGet, h, hf]

theorem exec_put : exec .put s = .next (s.outPut (s.memRead s.dp)).advance := rfl

end Sys2Proof.Machine
end

