-- ==== Sys2Proof/Laws/Exec.lean ====
section
/-! SUPPORT. Everything an instruction can do, said once: the inversion of `exec`. -/

namespace Sys2Proof.Machine

/-- If `exec i s` answers a next state, `i` and that state are one of these. -/
theorem exec_cases {i : Instr} {s t : State} (h : exec i s = .next t) :
    (i = .sentinel ∧ t = s.setStatus .haltEnd) ∨
    (∃ n, i = .add n ∧ t = (s.memWrite s.dp (cellPlus (s.memRead s.dp) n)).advance) ∨
    (∃ n, i = .sub n ∧ t = (s.memWrite s.dp (cellMinus (s.memRead s.dp) n)).advance) ∨
    (∃ n, i = .lft n ∧ t = (s.setDp (pointerLeft s.dp n)).advance) ∨
    (∃ n, i = .rgt n ∧ t = (s.setDp (pointerRight s.dp n)).advance) ∨
    (∃ n, i = .jpz n ∧ t = if s.memRead s.dp = 0 then s.setPc n else s.advance) ∨
    (∃ n, i = .jnz n ∧ t = if s.memRead s.dp = 0 then s.advance else s.setPc n) ∨
    (∃ b, i = .get ∧ s.input[s.inPos]? = some b ∧
      t = ({ s with inPos := s.inPos + 1 }.memWrite s.dp b).advance) ∨
    (i = .get ∧ s.input[s.inPos]? = none ∧ s.exitOnEof = true ∧ t = s.setStatus .haltEof) ∨
    (i = .get ∧ s.input[s.inPos]? = none ∧ s.exitOnEof = false ∧ t = (s.memWrite s.dp 0).advance) ∨
    (i = .put ∧ t = (s.outPut (s.memRead s.dp)).advance) := by
  have next : ∀ {u : State}, exec i s = .next u → t = u := fun hu => by
    rw [hu] at h; exact (Host.Outcome.next.inj h).symm
  cases i with
  | sentinel => exact .inl ⟨rfl, next (exec_sentinel s)⟩
  | add n => exact .inr <| .inl ⟨n, rfl, next (exec_add s n)⟩
  | sub n => exact .inr <| .inr <| .inl ⟨n, rfl, next (exec_sub s n)⟩
  | lft n => exact .inr <| .inr <| .inr <| .inl ⟨n, rfl, next (exec_lft s n)⟩
  | rgt n => exact .inr <| .inr <| .inr <| .inr <| .inl ⟨n, rfl, next (exec_rgt s n)⟩
  | jpz n => exact .inr <| .inr <| .inr <| .inr <| .inr <| .inl ⟨n, rfl, next (exec_jpz s n)⟩
  | jnz n => exact .inr <| .inr <| .inr <| .inr <| .inr <| .inr <| .inl ⟨n, rfl, next (exec_jnz s n)⟩
  | get =>
    refine .inr <| .inr <| .inr <| .inr <| .inr <| .inr <| .inr ?_
    rcases hb : s.input[s.inPos]? with _ | b
    · cases hf : s.exitOnEof
      · exact .inr <| .inr <| .inl ⟨rfl, rfl, rfl, next (exec_get_eos_zero s hb hf)⟩
      · exact .inr <| .inl ⟨rfl, rfl, rfl, next (exec_get_eos_stop s hb hf)⟩
    · exact .inl ⟨b, rfl, rfl, next (exec_get_byte s hb)⟩
  | put =>
    exact .inr <| .inr <| .inr <| .inr <| .inr <| .inr <| .inr <| .inr <| .inr <| .inr ⟨rfl, next (exec_put s)⟩

end Sys2Proof.Machine
end

