-- ==== Sys2Proof/Laws/HostPort.lean ====
section
/-! SUPPORT. What booting can answer. -/

namespace Sys2Proof.Machine

/-- The two things `boot` can do. -/
theorem State.boot_cases (s : State) (h : HostSetup) :
    (h.image.length ≤ Config.imemWords ∧ s.boot h = .ok
      { s.applyReset with imem := Memory.ofList 0 h.image, exitOnEof := h.exitOnEof, input := h.input }) ∨
    (Config.imemWords < h.image.length ∧ s.boot h = .error .imageTooLong) := by
  by_cases hl : Config.imemWords < h.image.length
  · exact .inr ⟨hl, by simp [State.boot, loadImage, hl]⟩
  · exact .inl ⟨Nat.le_of_not_lt hl, by simp [State.boot, loadImage, hl]⟩

/-- A fetch of a loaded image (R118, R119). -/
theorem State.fetch_ofList (s : State) (ws : List Word) (i : CodeIndex) :
    ({ s with imem := Memory.ofList 0 ws } : State).fetch i = ws.getD i.toNat 0 := by
  simp [State.fetch, Memory.read_ofList]

end Sys2Proof.Machine
end

