-- ==== Sys2Proof/Laws/PerInstr.lean ====
section
/-! SUPPORT. What holds of every instruction as syntax, one lemma per constructor. -/

namespace Sys2Proof.Laws.OpcodeBits

/-- The low 3 bits of an instruction's word are its opcode's bits (spec/30_encoding.md R46, R48; the sentinel's are 0, R49). -/
def Statement (i : Instr) : Prop :=
  opcodeField (encode i) =
    match i with
    | .sentinel => 0
    | .add _ => 0
    | .sub _ => 1
    | .lft _ => 2
    | .rgt _ => 3
    | .jpz _ => 4
    | .jnz _ => 5
    | .get => 6
    | .put => 7

theorem sentinel : Statement .sentinel := rfl

theorem add (n : Operand) : Statement (.add n) := opcodeField_joinWord n .add

theorem sub (n : Operand) : Statement (.sub n) := opcodeField_joinWord n .sub

theorem lft (n : Operand) : Statement (.lft n) := opcodeField_joinWord n .lft

theorem rgt (n : Operand) : Statement (.rgt n) := opcodeField_joinWord n .rgt

theorem jpz (t : Operand) : Statement (.jpz t) := opcodeField_joinWord t .jpz

theorem jnz (t : Operand) : Statement (.jnz t) := opcodeField_joinWord t .jnz

theorem get : Statement .get := opcodeField_joinWord 0 .get

theorem put : Statement .put := opcodeField_joinWord 0 .put

end Sys2Proof.Laws.OpcodeBits
end

