-- ==== Sys2Proof/Laws/Runs.lean ====
section
/-! SUPPORT. Runs: how `after` unfolds, and the one induction over it. -/

namespace Sys2Proof.Machine

@[simp] theorem State.after_zero (s : State) : s.after 0 = some s := rfl

theorem State.after_succ {s t : State} (h : step s = .next t) (k : Nat) : s.after (k + 1) = t.after k := by
  rw [State.after, h]

/-- The first step of a run that has one. -/
theorem State.after_succ_cases {s u : State} {k : Nat} (h : s.after (k + 1) = some u) :
    ∃ t, step s = .next t ∧ t.after k = some u := by
  rw [State.after] at h
  cases e : step s <;> rw [e] at h <;> simp at h
  exact ⟨_, rfl, h⟩

/-- A stopped state is its own whole run. -/
theorem State.after_stopped {s t : State} {k : Nat} (hs : s.status ≠ .running) (h : s.after k = some t) :
    k = 0 ∧ t = s := by
  cases k with
  | zero => exact ⟨rfl, by simpa using h.symm⟩
  | succ k =>
    obtain ⟨u, hu, -⟩ := State.after_succ_cases h
    exact absurd (step_next s hu).1 hs

/-- Two stretches of a run, one after the other. -/
theorem State.after_add {s t : State} {k : Nat} (j : Nat) (h : s.after k = some t) : s.after (k + j) = t.after j := by
  induction k generalizing s with
  | zero => rw [show s = t by simpa using h, Nat.zero_add]
  | succ k ih =>
    obtain ⟨u, hu, h'⟩ := State.after_succ_cases h
    rw [Nat.succ_add, State.after_succ hu, ih h']

/-- What holds of no step and is put before a run by each step holds of every run. -/
theorem State.after_induction {P : State → State → Nat → Prop} (zero : ∀ s, P s s 0)
    (succ : ∀ s t u k, step s = .next t → P t u k → P s u (k + 1)) {s t : State} {k : Nat}
    (h : s.after k = some t) : P s t k := by
  induction k generalizing s with
  | zero => rw [show t = s by simpa using h.symm]; exact zero s
  | succ k ih =>
    obtain ⟨u, hu, h'⟩ := State.after_succ_cases h
    exact succ s u t k hu (ih h')

end Sys2Proof.Machine
end

