-- ==== Sys2Proof/Tests/Slice0.lean ====
section
/-! SUPPORT. The model's own tests. Expected results are the vectors of spec/95_test_vectors.md (named in each comment) and
the worked encodings of spec/30_encoding.md; then one witness for each statement that has hypotheses. -/

namespace Sys2Proof.Machine.Tests

/-! ### Helpers -/

/-- A running state with `pc`, `dp` and the current cell given, otherwise as after reset. -/
def at' (pc : CodeIndex) (dp : CellAddr) (cell : Byte) : State :=
  { State.reset with pc := pc, dp := dp, tape := Memory.write [] dp.toNat cell }

/-- The next state, where there is one. -/
def nextOf : Host.Outcome State Fault Refusal → Option State
  | .next t => some t
  | .fault _ => none
  | .refused _ => none

/-- One piece of the next state. -/
def seen {α : Type} (o : Host.Outcome State Fault Refusal) (f : State → α) : Option α := (nextOf o).map f

/-! ### WellFormed: the one check and a term it refuses -/

theorem test_wellFormed_refuses_add_zero : WellFormed (.add 0) = false := by decide

theorem test_wellFormed_takes_sub_zero : WellFormed (.sub 0) = true := by decide

/-! ### Decode: every constructor from a word written out bit by bit (operand in bits 15 to 3, opcode in bits 2 to 0) -/

/-- E1: opcode 000, operand 0 is the sentinel. -/
theorem test_decode_sentinel : decode 0b0000000000000000 = .sentinel := by decide

/-- R69, `ADD 255`: operand 0000011111111, opcode 000. -/
theorem test_decode_add : decode 0b0000011111111000 = .add 255 := by decide

/-- A14, `SUB 5`: operand 0000000000101, opcode 001. -/
theorem test_decode_sub : decode 0b0000000000101001 = .sub 5 := by decide

/-- M4, `LFT 3`: operand 0000000000011, opcode 010. -/
theorem test_decode_lft : decode 0b0000000000011010 = .lft 3 := by decide

/-- R69, `RGT 8191`: operand all ones, opcode 011. -/
theorem test_decode_rgt : decode 0b1111111111111011 = .rgt 8191 := by decide

/-- E4, `JPZ 3`: operand 0000000000011, opcode 100. -/
theorem test_decode_jpz : decode 0b0000000000011100 = .jpz 3 := by decide

/-- S4, `JNZ 2`: operand 0000000000010, opcode 101. -/
theorem test_decode_jnz : decode 0b0000000000010101 = .jnz 2 := by decide

/-- G5: opcode 110, operand 8191 ignored. -/
theorem test_decode_get : decode 0b1111111111111110 = .get := by decide

/-- E11, `0xABCF`: opcode 111, operand 5497 ignored. -/
theorem test_decode_put : decode 0b1010101111001111 = .put := by decide

/-- E3, E9, E10, S9: neighbours of the sentinel and words with operand 1. -/
theorem test_decode_neighbours : [0x0001, 0x0800, 0x8000, 0x0008, 0x000A, 0x000C, 0x000E, 0x000F].map decode =
    [.sub 0, .add 256, .add 4096, .add 1, .lft 1, .jpz 1, .get, .put] := by decide

/-- The encode check of section 2: `JPZ 30` is 0x00F4, `JNZ 24` is 0x00C5; GET and PUT canonical (R65). -/
theorem test_encode : [encode (.jpz 30), encode (.jnz 24), encode .get, encode .put, encode .sentinel] =
    [0x00F4, 0x00C5, 0x0006, 0x0007, 0x0000] := by decide

/-- The table's words through `decodeTableWord`; nothing is longer than one word (R45). -/
theorem test_decodeTableWord : decodeTableWord 16 0 = some .sentinel ∧ decodeTableWord 16 0x1C = some (.jpz 3) ∧
    decodeTableWord 16 0xFFF8 = some (.add 8191) ∧ decodeTableWord 32 7 = none := by decide

/-- R34: `0x07F8` is the bytes F8, 07; a byte left over is refused by name. -/
theorem test_bytes : imageBytes [0x07F8] = [0xF8, 0x07] ∧ wordsOfBytes [0xF8, 0x07] = .ok [0x07F8] ∧
    decodeBytes [0xF8, 0x07, 0x01] = .ok (.add 255, [0x01]) ∧ decodeBytes [0xF8] = .error .truncatedWord := by decide

/-! ### One step of each instruction -/

/-- A2, A6: wrap above 255; the operand counts modulo 256. -/
theorem test_add : seen (exec (.add 1) (at' 0 0 255)) (·.memRead 0) = some 0 ∧
    seen (exec (.add 8191) (at' 0 0 10)) (·.memRead 0) = some 9 := by decide

/-- J12: at index 8191 the cell is written, then the fault. -/
theorem test_add_overflow : seen (exec (.add 1) (at' 8191 0 0)) (fun t => (t.memRead 0, t.pc, t.status)) =
    some (1, 8191, .faultPcOverflow) := by decide

/-- A7, A8: wrap below 0. -/
theorem test_sub : seen (exec (.sub 1) (at' 0 0 0)) (·.memRead 0) = some 255 ∧
    seen (exec (.sub 10) (at' 0 0 5)) (·.memRead 0) = some 251 := by decide

/-- A10: only `n mod 256` is subtracted; other state stays. -/
theorem test_sub_large : seen (exec (.sub 8191) (at' 3 9 10)) (fun t => (t.memRead 9, t.pc, t.dp)) =
    some (11, 4, 9) := by decide

/-- M3, M7, M11. -/
theorem test_lft : seen (exec (.lft 1) (at' 0 0 0)) (·.dp) = some 65535 ∧
    seen (exec (.lft 8191) (at' 0 0 0)) (·.dp) = some 57345 ∧
    seen (exec (.lft 10) (at' 0 5 0)) (·.dp) = some 65531 := by decide

/-- M2, M6, M10. -/
theorem test_rgt : seen (exec (.rgt 1) (at' 0 65535 0)) (·.dp) = some 0 ∧
    seen (exec (.rgt 8191) (at' 0 65535 0)) (·.dp) = some 8190 ∧
    seen (exec (.rgt 10) (at' 0 65530 0)) (·.dp) = some 4 := by decide

/-- J9. -/
theorem test_sentinel : nextOf (step (at' 2 0 7)) = some { at' 2 0 7 with status := .haltEnd } := by decide

/-- J14: a sentinel at index 8191 is no fault. -/
theorem test_sentinel_at_top : seen (step (at' 8191 0 0)) (fun t => (t.pc, t.status)) = some (8191, .haltEnd) := by
  decide

/-- J1, J2. -/
theorem test_jpz : seen (exec (.jpz 3) (at' 0 0 0)) (·.pc) = some 3 ∧
    seen (exec (.jpz 3) (at' 0 0 5)) (·.pc) = some 1 := by decide

/-- J5, J18: a jump to itself maps the state to itself, at index 8191 too. -/
theorem test_jpz_self : nextOf (exec (.jpz 7) (at' 7 0 0)) = some (at' 7 0 0) ∧
    nextOf (exec (.jpz 8191) (at' 8191 0 0)) = some (at' 8191 0 0) := by decide

/-- J3, J4, J11. -/
theorem test_jnz : seen (exec (.jnz 0) (at' 2 0 4)) (·.pc) = some 0 ∧
    seen (exec (.jnz 0) (at' 2 0 0)) (·.pc) = some 3 ∧ seen (exec (.jnz 8191) (at' 5 0 255)) (·.pc) = some 8191 := by
  decide

/-- J13: not taken at index 8191. -/
theorem test_jnz_overflow : seen (exec (.jnz 0) (at' 8191 0 0)) (fun t => (t.pc, t.status)) =
    some (8191, .faultPcOverflow) := by decide

/-- G1, G4: a byte read, 0 as good as any. -/
theorem test_get_byte : seen (exec .get { at' 0 0 9 with input := [0x41] }) (fun t => (t.memRead 0, t.inPos, t.pc)) =
    some (0x41, 1, 1) ∧
    seen (exec .get { at' 0 0 7 with input := [0] }) (fun t => (t.memRead 0, t.inPos)) = some (0, 1) := by decide

/-- G2, G3: end-of-stream, both ways. -/
theorem test_get_end : seen (exec .get { at' 0 0 0x41 with input := [0x41], inPos := 1 })
      (fun t => (t.memRead 0, t.inPos, t.pc, t.status)) = some (0, 1, 1, .running) ∧
    seen (exec .get { at' 0 0 0x41 with input := [0x41], inPos := 1, exitOnEof := true })
      (fun t => (t.memRead 0, t.inPos, t.pc, t.status)) = some (0x41, 1, 0, .haltEof) := by decide

/-- G7: appended after what was there. -/
theorem test_put : seen (exec .put { at' 0 0 0 with out := [72] }) (fun t => (t.out, t.pc)) = some ([72, 0], 1) := by
  decide

/-- J15: the byte is written, then the fault. -/
theorem test_put_overflow : seen (exec .put (at' 8191 0 0)) (fun t => (t.out, t.pc, t.status)) =
    some ([0], 8191, .faultPcOverflow) := by decide

/-! ### The step, the host, the toolchain -/

/-- A placed word is the next instruction: `ADD 3` from reset. -/
theorem test_withFetchWord : seen (step (State.reset.withFetchWord 16 0x0018)) (fun t => (t.memRead 0, t.pc)) =
    some (3, 1) := by decide

/-- R103: no step once stopped. -/
theorem test_stopped : nextOf (step { State.reset with status := .haltEof }) = none := by decide

/-- R119 over J12's image: `IMEM[0] = FFFC`, every other word 0. -/
theorem test_boot : (State.reset.boot { image := [0xFFFC], exitOnEof := true, input := [1] }).toOption.map
      (fun t => ([t.fetch 0, t.fetch 1, t.fetch 8191], t.exitOnEof, t.input)) =
    some ([0xFFFC, 0, 0], true, [1]) := by decide

/-- R69: `[-]` assembles to `JPZ 3`, `SUB 1`, `JNZ 0`, `END`. -/
theorem test_assemble_clear_loop : assemble ['[', '-', ']'] = .ok [0x001C, 0x0009, 0x0005, 0x0000] := by decide

/-- P2's image. -/
theorem test_assemble_sum : assemble [',', '>', ',', '<', '[', '-', '>', '+', '<', ']', '>', '.'] =
    .ok [0x0006, 0x000B, 0x0006, 0x000A, 0x0054, 0x0009, 0x000B, 0x0008, 0x000A, 0x0025, 0x000B, 0x0007, 0x0000] := by
  decide

/-- S4, `+].`, and R62's `++ ++`. -/
theorem test_assemble_unmatched_and_comment : assemble ['+', ']', '.'] = .ok [0x0008, 0x0015, 0x0007, 0x0000] ∧
    assemble ['+', '+', ' ', '+', '+'] = .ok [0x0010, 0x0010, 0x0000] := by decide

/-- D22: an unclosed bracket is refused by name. -/
theorem test_assemble_unclosed : assemble ['+', '['] = .error .unclosedBracket := by decide

/-- R68 on the image of `[-]` with a word after the sentinel. -/
theorem test_disassemble : disassemble [0x001C, 0x0009, 0x0005, 0x0000, 0x0008] =
    [⟨"JPZ", 3⟩, ⟨"SUB", 1⟩, ⟨"JNZ", 0⟩] := by decide

/-! ### Witnesses: what meets the hypotheses of each statement, each clause at a boundary value

Statements without a hypothesis but "for every state" or "for every word" need none. -/

/-- OpcodeFieldSelectsTheInstruction, and the encoding clause of each instruction's statement. -/
theorem witness_opcode_clauses : (0xFFF8 : Word) ≠ 0 ∧
    [0xFFF8, 0x0001, 0x0002, 0x0003, 0x0004, 0x0005, 0x0006, 0xFFFF].map (fun w : Word => w.toNat % 8) =
      [0, 1, 2, 3, 4, 5, 6, 7] := by decide

/-- SentinelIsTheZeroWordAndNoOther, EndStopsTheRunAndChangesNothingElse, StepRunsTheDecodedInstruction (zero word). -/
theorem witness_sentinel_fetched : (at' 8191 0 0).status = .running ∧ (at' 8191 0 0).fetch (at' 8191 0 0).pc = 0 := by
  decide

/-- DecodeOfEncodeIsTheInstruction, at the lowest and highest operand of ADD. -/
theorem witness_wellFormed : WellFormed (.add 1) = true ∧ WellFormed (.add 8191) = true := by decide

/-- SerialisedImageIsLowByteFirst: the last index of an image. -/
theorem witness_image_index : 1 < [(0x0008 : Word), 0x0000].length := by decide

/-- StepRunsTheDecodedInstruction: a running state that fetches each opcode, and a stopped one. -/
theorem witness_step_opcodes : [0xFFF8, 0x0001, 0x0002, 0x0003, 0x0004, 0x0005, 0x0006, 0xFFFF].map
      (fun w : Word => (((at' 8191 0 0).loadWord 8191 w).fetch 8191).toNat % 8) = [0, 1, 2, 3, 4, 5, 6, 7] ∧
    ((at' 8191 0 0).loadWord 8191 0xFFF8).status = .running ∧
    ((at' 8191 0 0).stop .haltEof).status ≠ .running := by decide

/-- StoppedStatesAreAbsorbing and HostWaitsForTheStop: a stopped state, and the run of length 0 from it. -/
theorem witness_stopped : ((at' 0 0 1).stop .haltEnd).status ≠ .running ∧
    ((at' 0 0 1).stop .haltEnd).after 0 = some ((at' 0 0 1).stop .haltEnd) ∧ (at' 0 0 1).status = .running :=
  ⟨by decide, rfl, rfl⟩

/-- RunEndsOnceOrNever: a run that ends (reset memory holds the sentinel), after one step. -/
theorem witness_run_ends : State.reset.EndsIn { State.reset with status := .haltEnd } := ⟨1, rfl, by decide⟩

/-- PcOverflowKeepsTheEffectAndFaults: index 8191 with a zero and a nonzero cell, with a byte left and with none, an
instruction that raises the fault, and the faulted state. -/
theorem witness_overflow : (at' 8191 0 0).pc.toNat = 8191 ∧ (at' 8191 0 0).memRead (at' 8191 0 0).dp = 0 ∧
    (at' 8191 0 1).memRead (at' 8191 0 1).dp ≠ 0 ∧
    ({ at' 8191 0 0 with input := [7] }).inPos < ({ at' 8191 0 0 with input := [7] }).input.length ∧
    (at' 8191 0 0).input.length ≤ (at' 8191 0 0).inPos ∧ (at' 8191 0 0).exitOnEof = false ∧
    (at' 8191 0 0).status ≠ .faultPcOverflow ∧ seen (exec .put (at' 8191 0 0)) (·.status) = some .faultPcOverflow := by
  decide

/-- PcOverflowKeepsTheEffectAndFaults: a JPZ and a JNZ not taken and a GET that goes on raise the fault at index 8191. -/
theorem witness_overflow_raised :
    seen (exec (.jpz 0) (at' 8191 0 1)) (·.status) = some .faultPcOverflow ∧
    seen (exec (.jnz 0) (at' 8191 0 0)) (·.status) = some .faultPcOverflow ∧
    seen (exec .get { at' 8191 0 0 with input := [7] }) (·.status) = some .faultPcOverflow ∧
    seen (exec .get (at' 8191 0 0)) (·.status) = some .faultPcOverflow := by decide

/-- JpzJumpsOnAZeroCell, JnzJumpsOnANonzeroCell: both clauses, at index 8191 and below. -/
theorem witness_jumps : (at' 8191 65535 0).memRead (at' 8191 65535 0).dp = 0 ∧
    (at' 8191 65535 1).memRead (at' 8191 65535 1).dp ≠ 0 ∧ (at' 8190 0 255).memRead (at' 8190 0 255).dp ≠ 0 := by decide

/-- The two clauses of `Advanced`: the last index with a successor, and the one without. -/
theorem witness_advanced : (at' 8190 0 0).pc.toNat < 8191 ∧ (at' 8191 0 0).pc.toNat = 8191 := by decide

/-- GetStoresTheByteOrMeetsTheEnd: the last byte, the end with the flag clear, the end with the flag set. -/
theorem witness_get : ({ at' 0 0 0 with input := [5, 6], inPos := 1 }).inPos < [(5 : Byte), 6].length ∧
    [(5 : Byte), 6].length ≤ ({ at' 0 0 0 with input := [5, 6], inPos := 2 }).inPos ∧
    ({ at' 0 0 0 with input := [5, 6], inPos := 2 }).exitOnEof = false ∧
    ({ at' 0 0 0 with input := [5, 6], inPos := 2, exitOnEof := true }).exitOnEof = true := by decide

/-- OnlyTheCurrentCellIsWritten: a next state, another cell than the current one, an instruction that stores nothing. -/
theorem witness_tape_frame : (∃ t, exec .put (at' 0 65535 3) = .next t) ∧ (0 : CellAddr) ≠ (at' 0 65535 3).dp ∧
    (∀ n, Instr.put ≠ .add n) ∧ (∀ n, Instr.put ≠ .sub n) ∧ Instr.put ≠ .get :=
  ⟨⟨_, rfl⟩, by decide, by simp, by simp, by simp⟩

/-- OnlyLftAndRgtMoveThePointer, OnlyGetReadsInputAndOnlyPutWritesOutput, RunNeverChangesItsParameters. -/
theorem witness_other_frames : (∃ t, exec (.add 1) (at' 0 0 0) = .next t) ∧ (∀ n, Instr.add 1 ≠ .lft n) ∧
    (∀ n, Instr.add 1 ≠ .rgt n) ∧ Instr.add 1 ≠ .get ∧ Instr.add 1 ≠ .put ∧
    (∃ t, State.reset.after 1 = some t) :=
  ⟨⟨_, rfl⟩, by simp, by simp, by simp, by simp, ⟨_, rfl⟩⟩

/-- StepEndsTheRunInThreeWaysOnly, StepKeepsMemoriesCanonicalAndCursorInside, SentinelInTheLastWordKeepsTheFaultAway,
OutputAndCursorOnlyGrow: a state that meets them all and has a step. -/
theorem witness_step_from_invariant : (at' 8191 65535 1).Inv ∧ (at' 8191 65535 1).LastWordIsSentinel ∧
    ¬ (at' 8191 65535 1).Faulted ∧ ∃ t, step (at' 8191 65535 1) = .next t :=
  ⟨by decide, by unfold State.LastWordIsSentinel; decide, by unfold State.Faulted; decide, ⟨_, rfl⟩⟩

/-- HostMovesKeepMemoriesCanonicalAndCursorInside: a state with the invariant, and host moves that succeed. -/
theorem witness_host_moves : (at' 0 0 1).Inv ∧
    (∃ t, (at' 0 0 1).boot { image := [0x0008], exitOnEof := false, input := [] } = .ok t) ∧
    (∃ t, ((at' 0 0 1).stop .haltEnd).imemLoad 8191 1 = .ok t) ∧
    (∃ t, ((at' 0 0 1).stop .haltEnd).configure true = .ok t) ∧ ((at' 0 0 1).stop .haltEnd).Inv :=
  ⟨by decide, ⟨_, rfl⟩, ⟨_, rfl⟩, ⟨_, rfl⟩, by decide⟩

/-- FilledImagesNeverFault: an image of one word, with 8191 words of fill. -/
theorem witness_filled_image : ([0x0008] : List Word).getD 8191 0 = 0 ∧
    ∃ u, State.reset.boot { image := [0x0008], exitOnEof := false, input := [] } = .ok u := ⟨rfl, ⟨_, rfl⟩⟩

/-- TurnedTapesStepAlike, OutputDoesNotDependOnWhereThePointerStarts: the reset state and the same with `dp` at 65535. -/
theorem witness_turned : RotatedBy 65535 State.reset { State.reset with dp := 65535 } ∧
    (∃ t, step State.reset = .next t) ∧ ∃ t, State.reset.after 1 = some t :=
  ⟨⟨rfl, by decide, fun _ => by simp [State.memRead, State.reset, Memory.read], rfl, rfl, rfl, rfl, rfl, rfl⟩, ⟨_, rfl⟩, ⟨_, rfl⟩⟩

/-- TakenJumpToItselfNeverEnds: both clauses, at the top index. -/
theorem witness_self_jump :
    ((at' 8191 0 0).loadWord 8191 0xFFFC).status = .running ∧
    ((at' 8191 0 0).loadWord 8191 0xFFFC).fetch 8191 = encode (.jpz 8191) ∧
    ((at' 8191 0 0).loadWord 8191 0xFFFC).memRead 0 = 0 ∧
    ((at' 8191 0 1).loadWord 8191 0xFFFD).fetch 8191 = encode (.jnz 8191) ∧
    ((at' 8191 0 1).loadWord 8191 0xFFFD).memRead 0 ≠ 0 := by decide

/-- CellOperandsCountModulo256 and WordsWithoutEffectOnlyAdvance: the highest multiple of 256, and 0. -/
theorem witness_modulo : (7936 : Operand).toNat % 256 = (0 : Operand).toNat % 256 ∧ (7936 : Operand).toNat % 256 = 0 := by
  decide

/-- TwoAddsAddUpModulo256, OppositeInstructionsRestore: two steps that follow one another. -/
theorem witness_two_steps :
    (∃ t u, exec (.add 255) (at' 0 0 1) = .next t ∧ exec (.add 8191) t = .next u) ∧
    (∃ t u, exec (.add 255) (at' 0 0 1) = .next t ∧ exec (.sub 255) t = .next u) ∧
    (∃ t u, exec (.rgt 8191) (at' 0 65535 1) = .next t ∧ exec (.lft 8191) t = .next u) :=
  ⟨⟨_, _, rfl, rfl⟩, ⟨_, _, rfl, rfl⟩, ⟨_, _, rfl, rfl⟩⟩

/-- JumpToTheSuccessorIsANoOperation, JumpPairAlwaysReachesItsTarget: the highest index below 8191. -/
theorem witness_below_top : (at' 8190 0 0).pc.toNat < 8191 := by decide

/-- InGetConsumesOneByteOrMeetsAStickyEnd: the last byte, and the end with a run that goes on. -/
theorem witness_inGet : ({ State.reset with input := [9] }).inPos < [(9 : Byte)].length ∧
    State.reset.input.length ≤ State.reset.inPos ∧ ∃ t, State.reset.after 1 = some t := ⟨by decide, by decide, ⟨_, rfl⟩⟩

/-- FirstStepAfterResetRunsWordZero. -/
theorem witness_word_zero : State.reset.fetch 0 = 0 := by decide

/-- BootLoadsTheImageThenSentinels: images of 8192 and of 8193 words. -/
theorem witness_image_lengths : (∃ ws : List Word, ws = List.replicate 8192 1 ∧ ws.length ≤ 8192) ∧
    ∃ ws : List Word, ws = List.replicate 8193 1 ∧ 8192 < ws.length :=
  ⟨⟨_, rfl, List.length_replicate.le⟩, ⟨_, rfl, List.length_replicate.ge⟩⟩

/-- RunAssemblesToItsLengthModulo8192: the shortest run. -/
theorem witness_run_length : 0 < 1 := by decide

/-- AssembledImageHasOneWordPerElement, AssembledBracketsNameEachOther: an image that holds a JPZ. -/
theorem witness_assembled : assemble ['[', ']'] = .ok [0x0014, 0x0005, 0x0000] ∧
    ([0x0014, 0x0005, 0x0000] : List Word)[0]? = some (encode (.jpz 2)) := by decide

/-- DisassemblerListsTheWordsUpToTheSentinel: a line of a listing. -/
theorem witness_listing : (disassemble [0xABCF, 0x0000])[0]? = some ⟨"PUT", 5497⟩ := by decide

end Sys2Proof.Machine.Tests
end

section
/-! The state after reset (spec/10_state.md R23): the tape read as cells, and what reset keeps. The remaining fields are the
`applyReset_*` lemmas of the state's laws. -/

namespace Sys2Proof.Machine

/-- The empty tape reads as zero at every cell. -/
theorem State.memRead_eq_zero_of_tape_eq_nil {s : State} (h : s.tape = []) (a : CellAddr) : s.memRead a = 0 := by
  rw [State.memRead, h, Memory.read_nil]

@[simp] theorem State.applyReset_memRead (s : State) (a : CellAddr) : s.applyReset.memRead a = 0 :=
  memRead_eq_zero_of_tape_eq_nil s.applyReset_tape a

theorem State.applyReset_sameParameters (s : State) : SameParameters s s.applyReset :=
  ⟨s.applyReset_imem, s.applyReset_input, s.applyReset_exitOnEof⟩

theorem State.statusCode_applyReset (s : State) : statusCode s.applyReset.status = 0 :=
  congrArg statusCode s.applyReset_status

/-- Reset is already done in the reset state, so what holds after every reset holds of it. -/
theorem State.applyReset_reset : State.reset.applyReset = State.reset := rfl

/-- R23 from every state, field by field. -/
theorem State.applyReset_values (s : State) :
    s.applyReset.pc = 0 ∧ s.applyReset.dp = 0 ∧ (∀ a, s.applyReset.memRead a = 0) ∧
      s.applyReset.inPos = 0 ∧ s.applyReset.out = [] ∧ statusCode s.applyReset.status = 0 ∧
      SameParameters s s.applyReset :=
  ⟨s.applyReset_pc, s.applyReset_dp, s.applyReset_memRead, s.applyReset_inPos, s.applyReset_out,
    s.statusCode_applyReset, s.applyReset_sameParameters⟩

/-- Settles O48: the values after reset from every state, and the reset state as the case of resetting it once more. -/
theorem resetLeavesTheStatedValues : Obligations.ResetLeavesTheStatedValues := by
  have values := State.applyReset_values State.reset
  rw [State.applyReset_reset] at values
  obtain ⟨hpc, hdp, hcells, hin, hout, hstatus, -⟩ := values
  exact ⟨State.applyReset_values, hpc, hdp, hcells, hin, hout, hstatus⟩

end Sys2Proof.Machine
end

section
/-! Serialised images (spec/20_memory.md R34): where each word's two bytes stand, and what they hold. -/

namespace Sys2Proof

@[simp] theorem imageBytes_nil : imageBytes [] = [] := rfl

@[simp] theorem imageBytes_cons (w : Word) (ws : List Word) :
    imageBytes (w :: ws) = w.extractLsb' 0 8 :: w.extractLsb' 8 8 :: imageBytes ws := rfl

/-- R34's positions, for every index: past the end of the image both sides are `none`. -/
theorem imageBytes_getElem? (ws : List Word) (i : Nat) :
    (imageBytes ws)[2 * i]? = ws[i]?.map (·.extractLsb' 0 8) ∧
      (imageBytes ws)[2 * i + 1]? = ws[i]?.map (·.extractLsb' 8 8) := by
  induction ws generalizing i with
  | nil => simp
  | cons w ws ih =>
    cases i with
    | zero => simp
    | succ i => simpa [Nat.mul_succ] using ih i

theorem lowByte_toNat (w : Word) : (w.extractLsb' 0 8).toNat = w.toNat % 256 := by
  simp [BitVec.extractLsb'_toNat]

theorem highByte_toNat (w : Word) : (w.extractLsb' 8 8).toNat = w.toNat / 256 := by
  have hw := w.isLt
  rw [BitVec.extractLsb'_toNat, Nat.shiftRight_eq_div_pow]
  omega

/-- Settles O9: a word's two bytes stand at the front of its image, and each further word moves them by two places. -/
theorem serialisedImageIsLowByteFirst : Obligations.SerialisedImageIsLowByteFirst := by
  intro ws i h
  have bytes := imageBytes_getElem? ws i
  rw [List.getElem?_eq_getElem h] at bytes
  obtain ⟨hlo, hhi⟩ := bytes
  exact ⟨_, _, hlo, hhi, lowByte_toNat ws[i], highByte_toNat ws[i]⟩

end Sys2Proof
end

section
/-! The word as a number (spec/30_encoding.md R46): its two fields by remainder and quotient, and a word put together. -/

namespace Sys2Proof

theorem opcodeField_toNat (w : Word) : (opcodeField w).toNat = w.toNat % 8 := by
  simp [opcodeField, BitVec.extractLsb'_toNat]

theorem operandField_toNat (w : Word) : (operandField w).toNat = w.toNat / 8 := by
  have hw := w.isLt
  rw [operandField, BitVec.extractLsb'_toNat, Nat.shiftRight_eq_div_pow]
  omega

theorem toNat_eq_operand_mul_eight_add_opcode (w : Word) :
    w.toNat = (operandField w).toNat * 8 + (opcodeField w).toNat := by
  rw [operandField_toNat, opcodeField_toNat]
  exact (Nat.div_add_mod' w.toNat 8).symm

theorem joinWord_toNat (n : Operand) (op : Opcode) : (joinWord n op).toNat = n.toNat * 8 + (opcodeBits op).toNat := by
  simpa only [operandField_joinWord, opcodeField_joinWord] using toNat_eq_operand_mul_eight_add_opcode (joinWord n op)

/-- Settles O1: the fields are the quotient and the remainder by 8, and a word put together has the fields it was given. -/
theorem wordLayoutIsOperandTimesEightPlusOpcode : Obligations.WordLayoutIsOperandTimesEightPlusOpcode :=
  ⟨fun w => ⟨opcodeField_toNat w, operandField_toNat w, toNat_eq_operand_mul_eight_add_opcode w⟩, joinWord_toNat⟩

end Sys2Proof
end

section
/-! What a word decodes to (spec/30_encoding.md R48 to R50): the zero word is the sentinel, and every other word is the
instruction of its opcode and operand fields. -/

namespace Sys2Proof

/-- The instruction an opcode names, with the operand where it takes one (R48). -/
def Opcode.instr : Opcode → Operand → Instr
  | .add, n => .add n
  | .sub, n => .sub n
  | .lft, n => .lft n
  | .rgt, n => .rgt n
  | .jpz, n => .jpz n
  | .jnz, n => .jnz n
  | .get, _ => .get
  | .put, _ => .put

theorem Opcode.instr_ne_sentinel (op : Opcode) (n : Operand) : op.instr n ≠ .sentinel := by
  cases op <;> simp [Opcode.instr]

theorem Opcode.instr_eq_add {op : Opcode} {n m : Operand} (h : op.instr n = .add m) : op = .add ∧ n = m := by
  cases op <;> simp_all [Opcode.instr]

/-- The opcode map loses no bit of the field: with `opcodeOfField_opcodeBits`, the two are inverse. -/
theorem opcodeBits_opcodeOfField : ∀ f : BitVec 3, opcodeBits (opcodeOfField f) = f := by decide

/-- Off the zero word, decoding is the opcode map applied to the two fields. -/
theorem decode_of_ne_zero {w : Word} (hw : w ≠ 0) :
    decode w = (opcodeOfField (opcodeField w)).instr (operandField w) := by
  rw [decode, Config.sentinelWord, if_neg hw]
  cases opcodeOfField (opcodeField w) <;> rfl

/-- One row of R48's table, for any of its eight opcodes. -/
theorem decode_of_mod_eight {w : Word} (op : Opcode) (hw : w ≠ 0) (h : w.toNat % 8 = (opcodeBits op).toNat) :
    decode w = op.instr (BitVec.ofNat 13 (w.toNat / 8)) := by
  have hop : opcodeField w = opcodeBits op := BitVec.eq_of_toNat_eq ((opcodeField_toNat w).trans h)
  rw [decode_of_ne_zero hw, hop, opcodeOfField_opcodeBits, ← operandField_toNat, BitVec.ofNat_toNat,
    BitVec.setWidth_eq]

/-- Settles O2: each clause is one row of R48's table. -/
theorem opcodeFieldSelectsTheInstruction : Obligations.OpcodeFieldSelectsTheInstruction := fun _ hw =>
  ⟨decode_of_mod_eight .add hw, decode_of_mod_eight .sub hw, decode_of_mod_eight .lft hw, decode_of_mod_eight .rgt hw,
    decode_of_mod_eight .jpz hw, decode_of_mod_eight .jnz hw, decode_of_mod_eight .get hw, decode_of_mod_eight .put hw⟩

theorem decode_eq_sentinel_iff (w : Word) : decode w = .sentinel ↔ w = 0 := by
  constructor
  · intro h
    by_contra hw
    exact Opcode.instr_ne_sentinel _ _ ((decode_of_ne_zero hw).symm.trans h)
  · rintro rfl
    rfl

/-- A word whose fields are those of `ADD 0` is the zero word, and that is the sentinel (R49). -/
theorem decode_ne_add_zero (w : Word) : decode w ≠ .add 0 := by
  intro h
  have hw : w ≠ 0 := mt (decode_eq_sentinel_iff w).mpr (by simp [h])
  obtain ⟨hop, hn⟩ := Opcode.instr_eq_add ((decode_of_ne_zero hw).symm.trans h)
  have hfield : opcodeField w = opcodeBits .add := by rw [← hop, opcodeBits_opcodeOfField]
  have hjoin : joinWord 0 .add = w := hn ▸ joinWord_fields w .add hfield
  exact hw hjoin.symm

/-- Settles O3: the sentinel's decoding both ways, `ADD 0` excluded, and the step of a core that fetches it. -/
theorem sentinelIsTheZeroWordAndNoOther : Obligations.SentinelIsTheZeroWordAndNoOther := by
  refine ⟨decode_eq_sentinel_iff, decode_ne_add_zero, fun s hs hfetch => ?_⟩
  have hinstr : s.instrAtPc = .sentinel := (decode_eq_sentinel_iff _).mpr hfetch
  rw [Machine.step_running s hs, hinstr]
  exact Machine.exec_sentinel s

end Sys2Proof
end

section
/-! Storing into the current cell and advancing, the shape of ADD and SUB (spec/40_cell_arithmetic.md R70, R71): the cell
stored, everything left alone, and the two results as numbers. -/

namespace Sys2Proof

/-- A row of R48's table other than ADD's, which the zero word does not share. -/
theorem decode_of_mod_eight_of_ne_add {w : Word} {op : Opcode} (hop : op ≠ .add)
    (h : w.toNat % 8 = (opcodeBits op).toNat) : decode w = op.instr (BitVec.ofNat 13 (w.toNat / 8)) := by
  refine decode_of_mod_eight op ?_ h
  rintro rfl
  cases op with
  | add => exact hop rfl
  | sub | lft | rgt | jpz | jnz | get | put => exact absurd h (by decide)

namespace Machine

@[simp] theorem State.memRead_memWrite_same (s : State) (a : CellAddr) (v : Byte) : (s.memWrite a v).memRead a = v := by
  simp [State.memRead_memWrite]

/-- R82 in numbers, after an instruction's own effect has left `pc` and `STATUS` alone. -/
theorem State.advanced_advance {s u : State} (hpc : u.pc = s.pc) (hstatus : u.status = s.status) :
    Advanced s u.advance := by
  unfold Advanced
  rw [← hpc, ← hstatus]
  rcases u.advance_cases with ⟨hlast, hadv⟩ | ⟨hlast, hadv⟩ <;> rw [hadv]
  · have hmax : u.pc.toNat = 8191 := by rw [hlast]; rfl
    exact ⟨fun hlt => absurd hmax hlt.ne, fun _ => ⟨hmax, rfl⟩⟩
  · have hne : u.pc.toNat ≠ 8191 := fun hmax => hlast (BitVec.eq_of_toNat_eq hmax)
    refine ⟨fun hlt => ⟨?_, rfl⟩, fun hmax => absurd hmax hne⟩
    rw [State.setPc_pc, BitVec.toNat_add]
    exact Nat.mod_eq_of_lt (Nat.succ_lt_succ hlt)

/-- What storing into the current cell and advancing leaves alone, and what it makes of `pc` and `STATUS`. -/
theorem State.storeCurrent_advance_frame {s t : State} {v : Byte} (ht : t = (s.memWrite s.dp v).advance) :
    OtherCellsSame s t ∧ t.dp = s.dp ∧ SameStreams s t ∧ SameParameters s t ∧ Advanced s t := by
  subst ht
  refine ⟨fun a ha => ?_, State.advance_dp _, ⟨State.advance_inPos _, State.advance_out _⟩,
    ⟨State.advance_imem _, State.advance_input _, State.advance_exitOnEof _⟩, State.advanced_advance rfl rfl⟩
  rw [State.advance_memRead, State.memRead_memWrite_other s v ha]

theorem cellPlus_toNat (c : Byte) (n : Operand) : (cellPlus c n).toNat = (c.toNat + n.toNat) % 256 :=
  BitVec.toNat_ofNat _ 8

theorem cellMinus_toNat (c : Byte) (n : Operand) :
    ((cellMinus c n).toNat : Int) = ((c.toNat : Int) - (n.toNat : Int)) % 256 := by
  rw [cellMinus, BitVec.toNat_ofInt]
  exact Int.toNat_of_nonneg (Int.emod_nonneg _ (by decide))

/-- Settles O18: ADD's row of the opcode map, `ADD 0` excluded, and the store of `cellPlus` followed by `advance`. -/
theorem addWritesTheSumModulo256 : Obligations.AddWritesTheSumModulo256 := by
  refine ⟨fun _ hw h => decode_of_mod_eight .add hw h, decode_ne_add_zero, fun n s => ⟨_, exec_add s n, ?_, ?_⟩⟩
  · rw [State.advance_memRead, State.memRead_memWrite_same, cellPlus_toNat]
  · exact State.storeCurrent_advance_frame rfl

/-- Settles O19: SUB's row of the opcode map, and the store of `cellMinus` followed by `advance`. -/
theorem subWritesTheDifferenceModulo256 : Obligations.SubWritesTheDifferenceModulo256 := by
  refine ⟨fun _ h => decode_of_mod_eight_of_ne_add (op := .sub) (by decide) h, fun n s => ⟨_, exec_sub s n, ?_, ?_⟩⟩
  · rw [State.advance_memRead, State.memRead_memWrite_same, cellMinus_toNat]
  · exact State.storeCurrent_advance_frame rfl

end Machine

end Sys2Proof
end

section
/-! Moving the pointer and advancing, the shape of LFT and RGT (spec/41_pointer_movement.md R75, R76): everything left alone,
and the two results as numbers. -/

namespace Sys2Proof.Machine

/-- What moving the pointer and advancing leaves alone, and what it makes of `pc` and `STATUS`. -/
theorem State.setDp_advance_frame {s t : State} {d : CellAddr} (ht : t = (s.setDp d).advance) :
    t.tape = s.tape ∧ SameStreams s t ∧ SameParameters s t ∧ Advanced s t := by
  subst ht
  exact ⟨State.advance_tape _, ⟨State.advance_inPos _, State.advance_out _⟩,
    ⟨State.advance_imem _, State.advance_input _, State.advance_exitOnEof _⟩, State.advanced_advance rfl rfl⟩

theorem pointerLeft_toNat (d : CellAddr) (n : Operand) :
    ((pointerLeft d n).toNat : Int) = ((d.toNat : Int) - (n.toNat : Int)) % 65536 := by
  rw [pointerLeft, BitVec.toNat_ofInt]
  exact Int.toNat_of_nonneg (Int.emod_nonneg _ (by decide))

theorem pointerRight_toNat (d : CellAddr) (n : Operand) : (pointerRight d n).toNat = (d.toNat + n.toNat) % 65536 :=
  BitVec.toNat_ofNat _ 16

/-- Settles O20: LFT's row of the opcode map, and the move to `pointerLeft` followed by `advance`. -/
theorem lftMovesThePointerDownModulo65536 : Obligations.LftMovesThePointerDownModulo65536 := by
  refine ⟨fun _ h => decode_of_mod_eight_of_ne_add (op := .lft) (by decide) h, fun n s => ⟨_, exec_lft s n, ?_, ?_⟩⟩
  · rw [State.advance_dp, State.setDp_dp, pointerLeft_toNat]
  · exact State.setDp_advance_frame rfl

/-- Settles O21: RGT's row of the opcode map, and the move to `pointerRight` followed by `advance`. -/
theorem rgtMovesThePointerUpModulo65536 : Obligations.RgtMovesThePointerUpModulo65536 := by
  refine ⟨fun _ h => decode_of_mod_eight_of_ne_add (op := .rgt) (by decide) h, fun n s => ⟨_, exec_rgt s n, ?_, ?_⟩⟩
  · rw [State.advance_dp, State.setDp_dp, pointerRight_toNat]
  · exact State.setDp_advance_frame rfl

end Sys2Proof.Machine
end

section
/-! One step (spec/42_control_transfer.md R80, R83): the instruction a running core executes, row by row of the opcode map,
and what the sentinel makes of it. -/

namespace Sys2Proof.Machine

/-- A stopped core has no next state, whatever word stands at `pc`. -/
theorem step_ne_next_of_stopped {s : State} (hs : s.status ≠ .running) (t : State) : step s ≠ .next t :=
  fun h => hs (step_next s h).1

/-- The step of a running core that fetches the sentinel. -/
theorem step_of_fetch_eq_zero {s : State} (hs : s.status = .running) (hw : s.fetch s.pc = 0) :
    step s = .next { s with status := .haltEnd } := by
  obtain ⟨-, -, hstep⟩ := sentinelIsTheZeroWordAndNoOther
  exact hstep s hs hw

/-- One arm of R80's case, for any of the eight opcodes. -/
theorem step_of_mod_eight {s : State} (op : Opcode) (hs : s.status = .running) (hw : s.fetch s.pc ≠ 0)
    (h : (s.fetch s.pc).toNat % 8 = (opcodeBits op).toNat) :
    step s = exec (op.instr (BitVec.ofNat 13 ((s.fetch s.pc).toNat / 8))) s := by
  rw [step_running s hs, State.instrAtPc, decode_of_mod_eight op hw h]

/-- Settles O11: no step when stopped; otherwise the sentinel first, then one arm per opcode. -/
theorem stepRunsTheDecodedInstruction : Obligations.StepRunsTheDecodedInstruction := fun s =>
  ⟨step_ne_next_of_stopped, fun hs => ⟨step_running s hs, step_of_fetch_eq_zero hs, fun hw =>
    ⟨step_of_mod_eight .add hs hw, step_of_mod_eight .sub hs hw, step_of_mod_eight .lft hs hw,
      step_of_mod_eight .rgt hs hw, step_of_mod_eight .jpz hs hw, step_of_mod_eight .jnz hs hw,
      step_of_mod_eight .get hs hw, step_of_mod_eight .put hs hw⟩⟩⟩

/-- Settles O22: the zero word's decoding, END's own effect, and the step that meets it, after which the core is stopped. -/
theorem endStopsTheRunAndChangesNothingElse : Obligations.EndStopsTheRunAndChangesNothingElse := by
  refine ⟨(decode_eq_sentinel_iff 0).mpr rfl, exec_sentinel, fun s hs hw => ?_⟩
  exact ⟨_, step_of_fetch_eq_zero hs hw, rfl, step_ne_next_of_stopped (by simp)⟩

end Sys2Proof.Machine
end

section
/-! Runs (spec/42_control_transfer.md R81): every instruction completes, so a run goes on exactly while `STATUS` is RUNNING;
it ends in one state, or never. -/

namespace Sys2Proof.Machine

/-- Every instruction answers a next state in every state. -/
theorem exec_completes (i : Instr) (s : State) : ∃ t, exec i s = .next t := by
  cases i with
  | sentinel => exact ⟨_, exec_sentinel s⟩
  | add n => exact ⟨_, exec_add s n⟩
  | sub n => exact ⟨_, exec_sub s n⟩
  | lft n => exact ⟨_, exec_lft s n⟩
  | rgt n => exact ⟨_, exec_rgt s n⟩
  | jpz n => exact ⟨_, exec_jpz s n⟩
  | jnz n => exact ⟨_, exec_jnz s n⟩
  | get =>
    rcases hb : s.input[s.inPos]? with _ | b
    · cases hf : s.exitOnEof
      · exact ⟨_, exec_get_eos_zero s hb hf⟩
      · exact ⟨_, exec_get_eos_stop s hb hf⟩
    · exact ⟨_, exec_get_byte s hb⟩
  | put => exact ⟨_, exec_put s⟩

theorem step_completes {s : State} (hs : s.status = .running) : ∃ t, step s = .next t := by
  rw [step_running s hs]
  exact exec_completes _ s

/-- A run that stands in a running state is one step longer. -/
theorem State.after_succ_of_running {s t : State} {k : Nat} (h : s.after k = some t) (ht : t.status = .running) :
    ∃ u, s.after (k + 1) = some u := by
  obtain ⟨u, hu⟩ := step_completes ht
  exact ⟨u, (State.after_add 1 h).trans (State.after_succ hu 0)⟩

/-- A run with no final state never stands still: each of its states is running, so each has a successor. -/
theorem State.diverges_of_no_end {s : State} (h : ∀ t, ¬ s.EndsIn t) : s.Diverges := by
  have running : ∀ {k t}, s.after k = some t → t.status = .running := fun {k t} hk =>
    by_contra fun hstop => h t ⟨k, hk, hstop⟩
  have long : ∀ k, ∃ t, s.after k = some t := by
    intro k
    induction k with
    | zero => exact ⟨s, State.after_zero s⟩
    | succ k ih =>
      obtain ⟨t, ht⟩ := ih
      exact State.after_succ_of_running ht (running ht)
  intro k
  obtain ⟨t, ht⟩ := long k
  exact ⟨t, ht, running ht⟩

theorem State.EndsIn.not_diverges {s t : State} (h : s.EndsIn t) : ¬ s.Diverges := by
  obtain ⟨k, hk, hstop⟩ := h
  intro hdiv
  obtain ⟨u, hu, hrun⟩ := hdiv k
  obtain rfl : t = u := Option.some.inj (hk.symm.trans hu)
  exact hstop hrun

/-- Once stopped, a run has no later state but the one it stopped in. -/
theorem State.after_eq_of_stopped {s t u : State} {k j : Nat} (hk : s.after k = some t) (ht : t.status ≠ .running)
    (hkj : k ≤ j) (hj : s.after j = some u) : u = t := by
  obtain ⟨d, rfl⟩ := Nat.exists_eq_add_of_le hkj
  rw [State.after_add d hk] at hj
  exact (State.after_stopped ht hj).2

theorem State.EndsIn.unique {s t u : State} (ht : s.EndsIn t) (hu : s.EndsIn u) : t = u := by
  obtain ⟨k, hk, hkstop⟩ := ht
  obtain ⟨j, hj, hjstop⟩ := hu
  rcases Nat.le_total k j with hkj | hjk
  · exact (State.after_eq_of_stopped hk hkstop hkj hj).symm
  · exact State.after_eq_of_stopped hj hjstop hjk hk

/-- The three endings (R18, R81). -/
theorem Status.ending_of_ne_running {c : Status} (h : c ≠ .running) :
    c = .haltEnd ∨ c = .haltEof ∨ c = .faultPcOverflow := by
  cases c with
  | running => exact absurd rfl h
  | haltEnd => exact .inl rfl
  | haltEof => exact .inr (.inl rfl)
  | faultPcOverflow => exact .inr (.inr rfl)

/-- Settles O15: a run without a final state diverges, one with a final state does not, and that state is unique and
stopped. -/
theorem runEndsOnceOrNever : Obligations.RunEndsOnceOrNever := by
  intro s
  refine ⟨?_, fun ⟨_, ht⟩ => ht.not_diverges, fun _ _ ht hu => ht.unique hu, fun t ht => ?_⟩
  · by_cases hend : ∃ t, s.EndsIn t
    · exact .inl hend
    · exact .inr (State.diverges_of_no_end (not_exists.mp hend))
  · obtain ⟨_, -, hstop⟩ := ht
    exact ⟨step_ne_next_of_stopped hstop, Status.ending_of_ne_running hstop⟩

end Sys2Proof.Machine
end

section
/-! The two jumps (spec/42_control_transfer.md R84, R85): a taken jump writes `pc` alone, one not taken is `advance` alone.
Each jump is one of the two by the current cell. -/

namespace Sys2Proof.Machine

/-- What a taken jump writes, and that it writes nothing else. -/
theorem State.setPc_frame (s : State) (t : CodeIndex) :
    (s.setPc t).pc.toNat = t.toNat ∧ { s.setPc t with pc := s.pc } = s := ⟨rfl, rfl⟩

/-- What `advance` alone makes of a state (R82). -/
theorem State.advance_frame (s : State) :
    Advanced s s.advance ∧ s.advance.tape = s.tape ∧ s.advance.dp = s.dp ∧ SameStreams s s.advance ∧
      SameParameters s s.advance :=
  ⟨State.advanced_advance rfl rfl, s.advance_tape, s.advance_dp, ⟨s.advance_inPos, s.advance_out⟩,
    ⟨s.advance_imem, s.advance_input, s.advance_exitOnEof⟩⟩

theorem exec_jpz_of_zero {s : State} (h : s.memRead s.dp = 0) (t : Operand) :
    exec (.jpz t) s = .next (s.setPc t) := by
  rw [exec_jpz, if_pos h]

theorem exec_jpz_of_ne_zero {s : State} (h : s.memRead s.dp ≠ 0) (t : Operand) :
    exec (.jpz t) s = .next s.advance := by
  rw [exec_jpz, if_neg h]

theorem exec_jnz_of_zero {s : State} (h : s.memRead s.dp = 0) (t : Operand) :
    exec (.jnz t) s = .next s.advance := by
  rw [exec_jnz, if_pos h]

theorem exec_jnz_of_ne_zero {s : State} (h : s.memRead s.dp ≠ 0) (t : Operand) :
    exec (.jnz t) s = .next (s.setPc t) := by
  rw [exec_jnz, if_neg h]

/-- Settles O23: JPZ's row of the opcode map, then the jump on a zero cell and `advance` on any other. -/
theorem jpzJumpsOnAZeroCell : Obligations.JpzJumpsOnAZeroCell :=
  ⟨fun _ h => decode_of_mod_eight_of_ne_add (op := .jpz) (by decide) h, fun t s =>
    ⟨fun hzero => ⟨_, exec_jpz_of_zero hzero t, s.setPc_frame t⟩,
      fun hne => ⟨_, exec_jpz_of_ne_zero hne t, s.advance_frame⟩⟩⟩

/-- Settles O24: JNZ's row of the opcode map, then the jump on a nonzero cell and `advance` on zero. -/
theorem jnzJumpsOnANonzeroCell : Obligations.JnzJumpsOnANonzeroCell :=
  ⟨fun _ h => decode_of_mod_eight_of_ne_add (op := .jnz) (by decide) h, fun t s =>
    ⟨fun hne => ⟨_, exec_jnz_of_ne_zero hne t, s.setPc_frame t⟩,
      fun hzero => ⟨_, exec_jnz_of_zero hzero t, s.advance_frame⟩⟩⟩

end Sys2Proof.Machine
end

section
/-! The two stream instructions (spec/43_io.md R92 to R94): GET stores the byte read, stores 0, or stops; PUT appends the
current cell to the output. -/

namespace Sys2Proof.Machine

/-- The frame of a store into the current cell, with the cell itself: what GET does after it has read the stream. -/
theorem State.storeCurrent_advance {s t : State} {v : Byte} (ht : t = (s.memWrite s.dp v).advance) :
    t.memRead s.dp = v ∧ OtherCellsSame s t ∧ t.dp = s.dp ∧ SameStreams s t ∧ SameParameters s t ∧ Advanced s t := by
  refine ⟨?_, State.storeCurrent_advance_frame ht⟩
  rw [ht, State.advance_memRead, State.memRead_memWrite_same]

/-- Settles O25: GET's row of the opcode map; a byte left is stored from the state whose cursor has moved past it, and the
end of the input is a store of 0 or the stop, by `exit_on_eof`. -/
theorem getStoresTheByteOrMeetsTheEnd : Obligations.GetStoresTheByteOrMeetsTheEnd := by
  refine ⟨fun _ h => decode_of_mod_eight_of_ne_add (op := .get) (by decide) h, fun s =>
    ⟨fun hleft => ?_, fun hend hflag => ?_, fun hend hflag => ?_⟩⟩
  · obtain ⟨hcell, hothers, hdp, ⟨hin, hout⟩, hparams, hadv⟩ :=
      State.storeCurrent_advance (s := { s with inPos := s.inPos + 1 }) (v := s.input[s.inPos]) rfl
    exact ⟨_, exec_get_byte s (List.getElem?_eq_getElem hleft), hcell, hin, hothers, hdp, hout, hparams, hadv⟩
  · exact ⟨_, exec_get_eos_zero s (List.getElem?_eq_none hend) hflag, State.storeCurrent_advance rfl⟩
  · exact exec_get_eos_stop s (List.getElem?_eq_none hend) hflag

/-- Settles O26: PUT's row of the opcode map, and the append followed by `advance`. -/
theorem putAppendsTheCurrentCell : Obligations.PutAppendsTheCurrentCell := by
  refine ⟨fun _ h => decode_of_mod_eight_of_ne_add (op := .put) (by decide) h, fun s => ?_⟩
  obtain ⟨hadv, htape, hdp, ⟨hin, hout⟩, hparams⟩ := (s.outPut (s.memRead s.dp)).advance_frame
  exact ⟨_, exec_put s, hout, htape, hdp, hin, hparams, hadv⟩

end Sys2Proof.Machine
end

section
/-! The one exception and what follows every stop (spec/60_exceptions.md R101, R103): at index 8191 an instruction that goes
on commits its effect and raises `PcOverflow`, nothing else raises it, and a stopped core has no step. -/

namespace Sys2Proof.Machine

/-- R101's condition less the index: the instruction completes through `advance`. END, a taken jump and a GET that stops do
not. -/
def State.NeedsSuccessor (s : State) : Instr → Prop
  | .sentinel => False
  | .add _ | .sub _ | .lft _ | .rgt _ | .put => True
  | .jpz _ => s.memRead s.dp ≠ 0
  | .jnz _ => s.memRead s.dp = 0
  | .get => s.inPos < s.input.length ∨ s.exitOnEof = false

/-- An instruction that advances from index 8191 commits its effect `u` and raises the fault. -/
theorem exec_raises_at_top {i : Instr} {s u : State} (h : exec i s = .next u.advance) (htop : u.pc.toNat = 8191) :
    exec i s = .next (u.setStatus .faultPcOverflow) := by
  rcases u.advance_cases with ⟨-, hadv⟩ | ⟨hlast, -⟩
  · rw [h, hadv]
  · exact absurd (BitVec.eq_of_toNat_eq htop) hlast

/-- `advance` raises the fault at index 8191 alone, and keeps `pc` there. -/
theorem State.pc_of_advance_raises {u : State} (hu : u.status ≠ .faultPcOverflow)
    (hadv : u.advance.status = .faultPcOverflow) : u.pc.toNat = 8191 ∧ u.advance.pc = u.pc := by
  rcases u.advance_cases with ⟨hlast, heq⟩ | ⟨-, heq⟩ <;> rw [heq] at hadv ⊢
  · exact ⟨by rw [hlast]; rfl, rfl⟩
  · exact absurd hadv hu

/-- An instruction that raises the fault needed a successor: it advanced from a state with the `pc` and `STATUS` it began
with. -/
theorem exec_raises {i : Instr} {s t : State} (h : exec i s = .next t) (hs : s.status ≠ .faultPcOverflow)
    (ht : t.status = .faultPcOverflow) :
    s.NeedsSuccessor i ∧ ∃ u : State, t = u.advance ∧ u.pc = s.pc ∧ u.status = s.status := by
  rcases exec_cases h with ⟨-, rfl⟩ | ⟨n, rfl, rfl⟩ | ⟨n, rfl, rfl⟩ | ⟨n, rfl, rfl⟩ | ⟨n, rfl, rfl⟩ | ⟨n, rfl, rfl⟩ |
    ⟨n, rfl, rfl⟩ | ⟨b, rfl, hbyte, rfl⟩ | ⟨-, -, -, rfl⟩ | ⟨rfl, -, hflag, rfl⟩ | ⟨rfl, rfl⟩
  · cases ht
  · exact ⟨trivial, _, rfl, rfl, rfl⟩
  · exact ⟨trivial, _, rfl, rfl, rfl⟩
  · exact ⟨trivial, _, rfl, rfl, rfl⟩
  · exact ⟨trivial, _, rfl, rfl, rfl⟩
  · split at ht
    · exact absurd ht hs
    · next hne => exact ⟨hne, s, if_neg hne, rfl, rfl⟩
  · split at ht
    · next hzero => exact ⟨hzero, s, if_pos hzero, rfl, rfl⟩
    · exact absurd ht hs
  · exact ⟨.inl (List.getElem?_eq_some_iff.mp hbyte).1, _, rfl, rfl, rfl⟩
  · cases ht
  · exact ⟨.inr hflag, _, rfl, rfl, rfl⟩
  · exact ⟨trivial, _, rfl, rfl, rfl⟩

/-- The instructions that go on, told apart from those that end the run or jump. -/
theorem State.NeedsSuccessor.not_stop_nor_jump {s : State} {i : Instr} (h : s.NeedsSuccessor i) :
    i ≠ .sentinel ∧ (∀ n, i = .jpz n → s.memRead s.dp ≠ 0) ∧ (∀ n, i = .jnz n → s.memRead s.dp = 0) ∧
      (i = .get → s.inPos < s.input.length ∨ s.exitOnEof = false) := by
  refine ⟨?_, ?_, ?_, ?_⟩
  · rintro rfl; exact h
  · rintro n rfl; exact h
  · rintro n rfl; exact h
  · rintro rfl; exact h

/-- Settles O17: each instruction's own equation with `advance` at index 8191; then the inversion of `exec` for the fault;
then R103 for the faulted state. -/
theorem pcOverflowKeepsTheEffectAndFaults : Obligations.PcOverflowKeepsTheEffectAndFaults := by
  refine ⟨fun s htop => ⟨fun n => ?_, fun n => ?_, fun n => ?_, fun n => ?_, fun t hne => ?_, fun t hzero => ?_,
    fun hleft => ?_, fun hend hflag => ?_, ?_⟩, fun i s t h hs ht => ?_, fun s hs => ?_⟩
  · exact exec_raises_at_top (exec_add s n) htop
  · exact exec_raises_at_top (exec_sub s n) htop
  · exact exec_raises_at_top (exec_lft s n) htop
  · exact exec_raises_at_top (exec_rgt s n) htop
  · exact exec_raises_at_top (exec_jpz_of_ne_zero hne t) htop
  · exact exec_raises_at_top (exec_jnz_of_zero hzero t) htop
  · exact exec_raises_at_top (exec_get_byte s (List.getElem?_eq_getElem hleft)) htop
  · exact exec_raises_at_top (exec_get_eos_zero s (List.getElem?_eq_none hend) hflag) htop
  · exact exec_raises_at_top (exec_put s) htop
  · obtain ⟨hneeds, u, rfl, hpc, hstatus⟩ := exec_raises h hs ht
    obtain ⟨htop, hstays⟩ := State.pc_of_advance_raises (hstatus ▸ hs) ht
    exact ⟨hpc ▸ htop, hstays.trans hpc, hneeds.not_stop_nor_jump⟩
  · exact ⟨by rw [hs]; rfl, step_ne_next_of_stopped (by rw [hs]; decide)⟩

/-- Settles O13: a run from a stopped state has length 0, and reset leaves STATUS RUNNING. -/
theorem stoppedStatesAreAbsorbing : Obligations.StoppedStatesAreAbsorbing := fun s hs =>
  ⟨step_ne_next_of_stopped hs, fun _ _ hk => (State.after_stopped hs hk).2, s.applyReset_status⟩

end Sys2Proof.Machine
end

section
/-! Encoding and decoding are inverse (spec/30_encoding.md section 3, C2): up to `ADD 0`, which stands for no word, and up to
the operand bits that GET and PUT ignore. -/

namespace Sys2Proof

/-- `ADD 0` is the only term no word stands for. -/
theorem wellFormed_iff (i : Instr) : WellFormed i = true ↔ i ≠ .add 0 := by
  cases i <;> simp [WellFormed]

/-- A word put together decodes to the instruction of its two parts, unless it is the sentinel. -/
theorem decode_joinWord {n : Operand} {op : Opcode} (h : op ≠ .add ∨ n ≠ 0) : decode (joinWord n op) = op.instr n := by
  rw [decode_of_ne_zero (joinWord_ne_sentinel h), opcodeField_joinWord, opcodeOfField_opcodeBits, operandField_joinWord]

theorem decode_encode {i : Instr} (h : i ≠ .add 0) : decode (encode i) = i := by
  cases i with
  | sentinel => rfl
  | add n => exact decode_joinWord (.inr fun hn => h (congrArg Instr.add hn))
  | sub n => exact decode_joinWord (op := .sub) (.inl (by decide))
  | lft n => exact decode_joinWord (op := .lft) (.inl (by decide))
  | rgt n => exact decode_joinWord (op := .rgt) (.inl (by decide))
  | jpz t => exact decode_joinWord (op := .jpz) (.inl (by decide))
  | jnz t => exact decode_joinWord (op := .jnz) (.inl (by decide))
  | get => exact decode_joinWord (op := .get) (.inl (by decide))
  | put => exact decode_joinWord (op := .put) (.inl (by decide))

/-- Settles O5: a word put together keeps both parts, and only `ADD 0` is lost to the sentinel. -/
theorem decodeOfEncodeIsTheInstruction : Obligations.DecodeOfEncodeIsTheInstruction := fun i hi =>
  decode_encode ((wellFormed_iff i).mp hi)

/-- Settles O7: every word but those of `ADD 0`, of which there is none, decodes to a well-formed term. -/
theorem everyWordDecodesToAWellFormedInstruction : Obligations.EveryWordDecodesToAWellFormedInstruction := fun w =>
  (wellFormed_iff _).mpr (decode_ne_add_zero w)

/-- Settles O8, by evaluation of the eleven words. -/
theorem workedEncodingsDecode : Obligations.WorkedEncodingsDecode := by
  unfold Obligations.WorkedEncodingsDecode
  decide

/-- The low three bits of a word by a mask, as a number. -/
theorem toNat_and_seven (w : Word) : (w &&& 0x0007).toNat = w.toNat % 8 := by
  rw [BitVec.toNat_and]
  exact Nat.and_two_pow_sub_one_eq_mod w.toNat 3

/-- The operand an opcode's encoding keeps: none for GET and PUT (R65). -/
def Opcode.keptOperand : Opcode → Operand → Operand
  | .get, _ | .put, _ => 0
  | .add, n | .sub, n | .lft, n | .rgt, n | .jpz, n | .jnz, n => n

theorem encode_instr (op : Opcode) (n : Operand) : encode (op.instr n) = joinWord (op.keptOperand n) op := by
  cases op <;> rfl

/-- Which opcodes keep their operand, by the number of the opcode. -/
theorem Opcode.keptOperand_eq (op : Opcode) (n : Operand) :
    op.keptOperand n = if (opcodeBits op).toNat < 6 then n else 0 := by
  cases op <;> rfl

/-- The opcode a word holds, as the remainder by 8. -/
theorem opcodeBits_toNat_of_word (w : Word) : (opcodeBits (opcodeOfField (opcodeField w))).toNat = w.toNat % 8 := by
  rw [opcodeBits_opcodeOfField, opcodeField_toNat]

/-- Re-encoding a word other than the sentinel joins its opcode with the operand that opcode keeps. -/
theorem encode_decode_of_ne_zero {w : Word} (hw : w ≠ 0) :
    encode (decode w) =
      joinWord (if w.toNat % 8 < 6 then operandField w else 0) (opcodeOfField (opcodeField w)) := by
  rw [decode_of_ne_zero hw, encode_instr, Opcode.keptOperand_eq, opcodeBits_toNat_of_word]

/-- Settles O6: the operand kept is the whole field below GET, and 0, which leaves the three opcode bits, from GET on. -/
theorem encodeOfDecodeKeepsAllButIgnoredBits : Obligations.EncodeOfDecodeKeepsAllButIgnoredBits := by
  intro w
  by_cases hw : w = 0
  · subst hw; rfl
  rw [encode_decode_of_ne_zero hw]
  split
  · exact joinWord_fields w _ (opcodeBits_opcodeOfField _).symm
  · apply BitVec.eq_of_toNat_eq
    rw [joinWord_toNat, opcodeBits_toNat_of_word, toNat_and_seven]
    exact Nat.zero_add _

/-! ### The match and mask form -/

theorem Opcode.instr_injective_left {op op' : Opcode} {n m : Operand} (h : op.instr n = op'.instr m) : op = op' := by
  simpa [encode_instr] using congrArg (fun i => opcodeOfField (opcodeField (encode i))) h

/-- The words of one opcode: those with its number as remainder by 8, the sentinel apart. -/
theorem exists_decode_eq_instr_iff (w : Word) (op : Opcode) :
    (∃ n, decode w = op.instr n) ↔ w ≠ 0 ∧ w.toNat % 8 = (opcodeBits op).toNat := by
  constructor
  · rintro ⟨n, hn⟩
    have hw : w ≠ 0 := fun h => Opcode.instr_ne_sentinel op n (hn.symm.trans ((decode_eq_sentinel_iff w).mpr h))
    refine ⟨hw, ?_⟩
    rw [← Opcode.instr_injective_left ((decode_of_ne_zero hw).symm.trans hn), opcodeBits_toNat_of_word]
  · rintro ⟨hw, hop⟩
    exact ⟨_, decode_of_mod_eight op hw hop⟩

/-- An opcode's match value under the mask, as a remainder by 8. -/
theorem and_seven_eq_iff (w : Word) (op : Opcode) :
    w &&& 0x0007 = (opcodeBits op).setWidth 16 ↔ w.toNat % 8 = (opcodeBits op).toNat := by
  rw [← BitVec.toNat_inj, toNat_and_seven, BitVec.toNat_setWidth_of_le (by decide)]

/-- One row of the table for an opcode other than ADD's, whose match value the sentinel does not share. -/
theorem exists_decode_eq_instr_iff_of_ne_add (w : Word) {op : Opcode} (hop : op ≠ .add) :
    (∃ n, decode w = op.instr n) ↔ w &&& 0x0007 = (opcodeBits op).setWidth 16 := by
  rw [exists_decode_eq_instr_iff, and_seven_eq_iff]
  refine ⟨And.right, fun h => ⟨?_, h⟩⟩
  rintro rfl
  cases op with
  | add => exact hop rfl
  | sub | lft | rgt | jpz | jnz | get | put => exact absurd h (by decide)

/-- Settles O4: the sentinel's row compares the whole word; ADD's leaves the sentinel out; the other rows are one lemma over
the opcode. -/
theorem decodeAgreesWithMatchAndMask : Obligations.DecodeAgreesWithMatchAndMask := by
  intro w
  have whole : w &&& 0xFFFF = w := BitVec.and_allOnes
  have row {op : Opcode} (hop : op ≠ .add) := exists_decode_eq_instr_iff_of_ne_add w hop
  refine ⟨?_, ?_, row (op := .sub) (by decide), row (op := .lft) (by decide), row (op := .rgt) (by decide),
    row (op := .jpz) (by decide), row (op := .jnz) (by decide), ?_, ?_⟩
  · rw [whole]
    exact decode_eq_sentinel_iff w
  · rw [whole]
    exact (exists_decode_eq_instr_iff w .add).trans (and_congr_right' (and_seven_eq_iff w .add).symm)
  · exact (exists_const Operand).symm.trans (row (op := .get) (by decide))
  · exact (exists_const Operand).symm.trans (row (op := .put) (by decide))

end Sys2Proof
end

section
/-! Serialised images read back (spec/20_memory.md section 2). -/

namespace Sys2Proof

/-- A word is its two bytes, the high one in front. -/
theorem highByte_append_lowByte (w : Word) : (w.extractLsb' 8 8 ++ w.extractLsb' 0 8 : BitVec 16) = w := by
  apply BitVec.eq_of_toNat_eq
  rw [BitVec.toNat_append, highByte_toNat, lowByte_toNat,
    ← Nat.shiftLeft_add_eq_or_of_lt (Nat.mod_lt _ (by decide)), Nat.shiftLeft_eq]
  exact Nat.div_add_mod' w.toNat 256

/-- Settles O10, by induction on the words: two bytes are read off and joined for each. -/
theorem imageBytesReadBackAsTheWords : Obligations.ImageBytesReadBackAsTheWords := by
  intro ws
  induction ws with
  | nil => rfl
  | cons w ws ih => rw [imageBytes_cons, wordsOfBytes, ih, highByte_append_lowByte]

end Sys2Proof
end

section
/-! The frames over all instructions (spec/10_state.md section 11). An instruction first changes data, in one of five ways,
and then settles `pc` and `STATUS`; each frame is read off the five ways. -/

namespace Sys2Proof.Machine

/-- The change of data an instruction makes before `pc` and `STATUS` are settled: from `s` to the state given. -/
inductive State.DataEffect (s : State) : Instr → State → Prop where
  /-- END, the jumps, and a GET that stops. -/
  | keep (i : Instr) : s.DataEffect i s
  /-- ADD, SUB, and a GET at the end of the input. -/
  | store {i : Instr} (hi : (∃ n, i = .add n) ∨ (∃ n, i = .sub n) ∨ i = .get) (v : Byte) :
      s.DataEffect i (s.memWrite s.dp v)
  /-- A GET that reads a byte. -/
  | consume (h : s.inPos < s.input.length) (b : Byte) :
      s.DataEffect .get ({ s with inPos := s.inPos + 1 }.memWrite s.dp b)
  /-- LFT and RGT. -/
  | move {i : Instr} (hi : (∃ n, i = .lft n) ∨ ∃ n, i = .rgt n) (d : CellAddr) : s.DataEffect i (s.setDp d)
  /-- PUT. -/
  | append (b : Byte) : s.DataEffect .put (s.outPut b)

/-- `advance` writes `pc` and `STATUS` alone. -/
theorem State.advance_settles (u : State) : ∃ p c, u.advance = (u.setPc p).setStatus c := by
  rcases u.advance_cases with ⟨-, h⟩ | ⟨-, h⟩
  · exact ⟨u.pc, .faultPcOverflow, h⟩
  · exact ⟨u.pc + 1, u.status, h⟩

/-- The change of data an instruction makes, then new values of `pc` and `STATUS`. -/
def State.EffectThenControl (s : State) (i : Instr) (t : State) : Prop :=
  ∃ u p c, s.DataEffect i u ∧ t = (u.setPc p).setStatus c

theorem State.DataEffect.then_advance {s u : State} {i : Instr} (hu : s.DataEffect i u) :
    s.EffectThenControl i u.advance := by
  obtain ⟨p, c, hadv⟩ := u.advance_settles
  exact ⟨u, p, c, hu, hadv⟩

theorem State.effect_setPc (s : State) (i : Instr) (n : CodeIndex) : s.EffectThenControl i (s.setPc n) :=
  ⟨s, n, s.status, .keep i, rfl⟩

theorem State.effect_setStatus (s : State) (i : Instr) (c : Status) : s.EffectThenControl i (s.setStatus c) :=
  ⟨s, s.pc, c, .keep i, rfl⟩

theorem exec_effect {i : Instr} {s t : State} (h : exec i s = .next t) : s.EffectThenControl i t := by
  rcases exec_cases h with ⟨-, rfl⟩ | ⟨n, hi, rfl⟩ | ⟨n, hi, rfl⟩ | ⟨n, hi, rfl⟩ | ⟨n, hi, rfl⟩ | ⟨n, -, rfl⟩ | ⟨n, -, rfl⟩ |
    ⟨b, rfl, hbyte, rfl⟩ | ⟨-, -, -, rfl⟩ | ⟨hi, -, -, rfl⟩ | ⟨rfl, rfl⟩
  · exact s.effect_setStatus i _
  · exact State.DataEffect.then_advance (.store (.inl ⟨n, hi⟩) _)
  · exact State.DataEffect.then_advance (.store (.inr (.inl ⟨n, hi⟩)) _)
  · exact State.DataEffect.then_advance (.move (.inl ⟨n, hi⟩) _)
  · exact State.DataEffect.then_advance (.move (.inr ⟨n, hi⟩) _)
  · split
    · exact s.effect_setPc i n
    · exact State.DataEffect.then_advance (.keep i)
  · split
    · exact State.DataEffect.then_advance (.keep i)
    · exact s.effect_setPc i n
  · exact State.DataEffect.then_advance (.consume (List.getElem?_eq_some_iff.mp hbyte).1 b)
  · exact s.effect_setStatus i _
  · exact State.DataEffect.then_advance (.store (.inr (.inr hi)) 0)
  · exact State.DataEffect.then_advance (.append _)

/-- Settles O27: the two ways that store do so at `dp`; they are ADD's, SUB's and GET's. -/
theorem onlyTheCurrentCellIsWritten : Obligations.OnlyTheCurrentCellIsWritten := by
  intro i s t h
  obtain ⟨u, p, c, heff, rfl⟩ := exec_effect h
  cases heff with
  | keep | move | append => exact ⟨fun _ _ => rfl, fun _ _ _ => rfl⟩
  | store hi v =>
    refine ⟨fun a ha => s.memRead_memWrite_other v ha, fun hadd hsub hget => ?_⟩
    rcases hi with ⟨n, hi⟩ | ⟨n, hi⟩ | hi
    · exact absurd hi (hadd n)
    · exact absurd hi (hsub n)
    · exact absurd hi hget
  | consume _ b =>
    exact ⟨fun a ha => State.memRead_memWrite_other { s with inPos := s.inPos + 1 } b ha,
      fun _ _ hget => absurd rfl hget⟩

/-- Settles O28: the one way that writes `dp` is LFT's and RGT's. -/
theorem onlyLftAndRgtMoveThePointer : Obligations.OnlyLftAndRgtMoveThePointer := by
  intro i s t h hlft hrgt
  obtain ⟨u, p, c, heff, rfl⟩ := exec_effect h
  cases heff with
  | keep | store | consume | append => rfl
  | move hi d =>
    rcases hi with ⟨n, hi⟩ | ⟨n, hi⟩
    · exact absurd hi (hlft n)
    · exact absurd hi (hrgt n)

/-- Settles O29: the cursor moves where a GET consumes, and the output grows where a PUT appends. -/
theorem onlyGetReadsInputAndOnlyPutWritesOutput : Obligations.OnlyGetReadsInputAndOnlyPutWritesOutput := by
  intro i s t h
  obtain ⟨u, p, c, heff, rfl⟩ := exec_effect h
  cases heff with
  | keep | store | move => exact ⟨fun _ => rfl, fun _ => rfl⟩
  | consume => exact ⟨fun hget => absurd rfl hget, fun _ => rfl⟩
  | append => exact ⟨fun _ => rfl, fun hput => absurd rfl hput⟩

/-! ### The parameters of the run -/

theorem exec_sameParameters {i : Instr} {s t : State} (h : exec i s = .next t) : SameParameters s t := by
  obtain ⟨u, p, c, heff, rfl⟩ := exec_effect h
  cases heff <;> exact ⟨rfl, rfl, rfl⟩

theorem step_sameParameters {s t : State} (h : step s = .next t) : SameParameters s t :=
  exec_sameParameters (step_next s h).2

theorem SameParameters.trans {s t u : State} (hst : SameParameters s t) (htu : SameParameters t u) :
    SameParameters s u := by
  obtain ⟨himem, hinput, hflag⟩ := hst
  obtain ⟨himem', hinput', hflag'⟩ := htu
  exact ⟨himem'.trans himem, hinput'.trans hinput, hflag'.trans hflag⟩

theorem SameParameters.fetch_eq {s t : State} (h : SameParameters s t) (j : CodeIndex) : t.fetch j = s.fetch j := by
  rw [State.fetch, State.fetch, h.1]

theorem State.after_sameParameters {s t : State} {k : Nat} (h : s.after k = some t) : SameParameters s t :=
  State.after_induction (P := fun s t _ => SameParameters s t) (fun _ => ⟨rfl, rfl, rfl⟩)
    (fun _ _ _ _ hstep ih => (step_sameParameters hstep).trans ih) h

/-- Settles O30: no way of changing data writes a parameter, and so none changes along a run. -/
theorem runNeverChangesItsParameters : Obligations.RunNeverChangesItsParameters :=
  ⟨fun _ _ _ => exec_sameParameters, fun _ _ _ => State.after_sameParameters⟩

end Sys2Proof.Machine
end

section
/-! What grows along a run (spec/20_memory.md section 7): the output by what is appended, the cursor by what is consumed. -/

namespace Sys2Proof.Machine

theorem exec_grows {i : Instr} {s t : State} (h : exec i s = .next t) :
    (∃ bs : List Byte, t.out = s.out ++ bs ∧ bs.length ≤ 1) ∧ s.inPos ≤ t.inPos ∧ t.inPos ≤ s.inPos + 1 := by
  obtain ⟨u, p, c, heff, rfl⟩ := exec_effect h
  cases heff with
  | keep | store | move => exact ⟨⟨[], (List.append_nil _).symm, Nat.zero_le 1⟩, Nat.le_refl _, Nat.le_succ _⟩
  | consume => exact ⟨⟨[], (List.append_nil _).symm, Nat.zero_le 1⟩, Nat.le_succ _, Nat.le_refl _⟩
  | append b => exact ⟨⟨[b], rfl, Nat.le_refl 1⟩, Nat.le_refl _, Nat.le_succ _⟩

theorem State.after_grows {s t : State} {k : Nat} (h : s.after k = some t) :
    s.out <+: t.out ∧ t.out.length ≤ s.out.length + k ∧ s.inPos ≤ t.inPos ∧ t.inPos ≤ s.inPos + k := by
  refine State.after_induction (P := fun s t k =>
    s.out <+: t.out ∧ t.out.length ≤ s.out.length + k ∧ s.inPos ≤ t.inPos ∧ t.inPos ≤ s.inPos + k)
    (fun s => ⟨⟨[], List.append_nil _⟩, Nat.le_refl _, Nat.le_refl _, Nat.le_refl _⟩) ?_ h
  intro s t u k hstep ih
  obtain ⟨⟨bs, hout, hbs⟩, hmin, hmax⟩ := exec_grows (step_next s hstep).2
  obtain ⟨hgrown, hlength, hmin', hmax'⟩ := ih
  refine ⟨List.IsPrefix.trans ⟨bs, hout.symm⟩ hgrown, ?_, by omega, by omega⟩
  rw [hout, List.length_append] at hlength
  omega

/-- Settles O37: one step, then the sum of the steps. -/
theorem outputAndCursorOnlyGrow : Obligations.OutputAndCursorOnlyGrow :=
  ⟨fun s _ h => exec_grows (step_next s h).2, fun _ _ _ => State.after_grows⟩

/-! ### InGet (spec/10_state.md section 6) -/

theorem State.inGet_of_lt {s : State} (h : s.inPos < s.input.length) :
    s.inGet = (.byte s.input[s.inPos], { s with inPos := s.inPos + 1 }) := by
  rcases s.inGet_cases with ⟨b, hb, hget⟩ | ⟨hnone, -⟩
  · rw [hget, (List.getElem?_eq_some_iff.mp hb).2]
  · exact absurd h (List.getElem?_eq_none_iff.mp hnone).not_gt

theorem State.inGet_of_le {s : State} (h : s.input.length ≤ s.inPos) : s.inGet = (.eos, s) := by
  rcases s.inGet_cases with ⟨b, hb, -⟩ | ⟨-, hget⟩
  · exact absurd (List.getElem?_eq_some_iff.mp hb).1 h.not_gt
  · exact hget

/-- Settles O47: the two cases of InGet; the end is sticky because the cursor only moves on and the input stays. -/
theorem inGetConsumesOneByteOrMeetsAStickyEnd : Obligations.InGetConsumesOneByteOrMeetsAStickyEnd := by
  refine ⟨fun s => ⟨State.inGet_of_lt, State.inGet_of_le⟩, fun s t k hend hrun => State.inGet_of_le ?_, rfl⟩
  obtain ⟨-, hinput, -⟩ := State.after_sameParameters hrun
  obtain ⟨-, -, hmin, -⟩ := State.after_grows hrun
  rw [hinput]
  exact hend.trans hmin

end Sys2Proof.Machine
end

section
/-! The invariant of every state (spec/10_state.md sections 4 to 6): kept by every step and by every move of the host. -/

namespace Sys2Proof.Machine

/-- A store at any address keeps the tape canonical: every address is inside the tape. -/
theorem State.wf_tape_memWrite {s : State} (h : Memory.wf Config.tapeCells s.tape) (a : CellAddr) (v : Byte) :
    Memory.wf Config.tapeCells (s.memWrite a v).tape :=
  Memory.wf_write v a.isLt h

/-- Of the five ways to change data two store inside the tape, and the one that moves the cursor on has a byte left to
consume. -/
theorem exec_keeps_inv {i : Instr} {s t : State} (hinv : s.Inv) (h : exec i s = .next t) : t.Inv := by
  obtain ⟨htape, himem, hcursor⟩ := hinv
  obtain ⟨u, p, c, heff, rfl⟩ := exec_effect h
  cases heff with
  | keep | move | append => exact ⟨htape, himem, hcursor⟩
  | store _ v => exact ⟨State.wf_tape_memWrite htape s.dp v, himem, hcursor⟩
  | consume hleft b => exact ⟨State.wf_tape_memWrite htape s.dp b, himem, hleft⟩

/-- Settles O32: a step is the execution of one instruction, and every instruction keeps the invariant. -/
theorem stepKeepsMemoriesCanonicalAndCursorInside : Obligations.StepKeepsMemoriesCanonicalAndCursorInside :=
  fun s _ hinv h => exec_keeps_inv hinv (step_next s h).2

theorem Memory.wf_nil {w : Nat} (size : Nat) : Memory.wf size ([] : List (Nat × BitVec w)) :=
  ⟨.nil, fun _ hc => absurd hc List.not_mem_nil⟩

/-- Settles O33: both memories are empty and the cursor is at 0. -/
theorem resetHasCanonicalMemoriesAndCursorInside : Obligations.ResetHasCanonicalMemoriesAndCursorInside :=
  ⟨Memory.wf_nil _, Memory.wf_nil _, Nat.le_refl 0⟩

theorem State.applyReset_inv {s : State} (h : s.Inv) : s.applyReset.Inv := by
  obtain ⟨-, himem, -⟩ := h
  exact ⟨Memory.wf_nil _, himem, Nat.zero_le _⟩

theorem State.boot_inv {s t : State} {h : HostSetup} (hboot : s.boot h = .ok t) : t.Inv := by
  rcases s.boot_cases h with ⟨hfits, hok⟩ | ⟨-, herr⟩
  · obtain rfl := Except.ok.inj (hok.symm.trans hboot)
    exact ⟨Memory.wf_nil _, Memory.wf_ofList 0 h.image (by omega), Nat.zero_le _⟩
  · cases herr.symm.trans hboot

theorem State.loadWord_inv {s : State} (h : s.Inv) (i : CodeIndex) (w : Word) : (s.loadWord i w).Inv := by
  obtain ⟨htape, himem, hcursor⟩ := h
  exact ⟨htape, Memory.wf_write w i.isLt himem, hcursor⟩

/-! ### What the host's two writes can do -/

theorem State.isRunning_iff (s : State) : s.isRunning = true ↔ s.status = .running :=
  beq_iff_eq

/-- A host operation that waits for the stop answers its refusal in a running state and its effect in a stopped one. -/
theorem State.waits_cases {α : Type} (s : State) (refuse act : α) :
    (s.status = .running ∧ (if s.isRunning then refuse else act) = refuse) ∨
      (s.status ≠ .running ∧ (if s.isRunning then refuse else act) = act) := by
  by_cases h : s.status = .running
  · exact .inl ⟨h, if_pos (s.isRunning_iff.mpr h)⟩
  · exact .inr ⟨h, if_neg (mt s.isRunning_iff.mp h)⟩

theorem State.imemLoad_cases (s : State) (i : CodeIndex) (w : Word) :
    (s.status = .running ∧ s.imemLoad i w = .error .whileRunning) ∨
      (s.status ≠ .running ∧ s.imemLoad i w = .ok (s.loadWord i w)) :=
  s.waits_cases _ _

theorem State.configure_cases (s : State) (flag : Bool) :
    (s.status = .running ∧ s.configure flag = .error .whileRunning) ∨
      (s.status ≠ .running ∧ s.configure flag = .ok { s with exitOnEof := flag }) :=
  s.waits_cases _ _

/-- Settles O34: reset and boot give an empty tape and a cursor at 0, a word is loaded inside the instruction memory, and the
flag is no part of the invariant. -/
theorem hostMovesKeepMemoriesCanonicalAndCursorInside :
    Obligations.HostMovesKeepMemoriesCanonicalAndCursorInside := by
  intro s t hinv
  refine ⟨State.applyReset_inv hinv, fun _ => State.boot_inv, fun i w hok => ?_, fun flag hok => ?_, fun nbits w => ?_⟩
  · rcases s.imemLoad_cases i w with ⟨-, herr⟩ | ⟨-, hload⟩
    · cases herr.symm.trans hok
    · obtain rfl := Except.ok.inj (hload.symm.trans hok)
      exact State.loadWord_inv hinv i w
  · rcases s.configure_cases flag with ⟨-, herr⟩ | ⟨-, hset⟩
    · cases herr.symm.trans hok
    · obtain rfl := Except.ok.inj (hset.symm.trans hok)
      exact hinv
  · exact State.loadWord_inv hinv s.pc _

end Sys2Proof.Machine
end

section
/-! The fault kept away, and the ends of a run (spec/60_exceptions.md sections 2 and 3). -/

namespace Sys2Proof.Machine

/-- What R101 says of a step that leads to the fault. -/
theorem step_faults {s t : State} (h : step s = .next t) (ht : t.Faulted) :
    s.pc.toNat = 8191 ∧ t.pc = s.pc ∧ s.fetch s.pc ≠ 0 := by
  obtain ⟨hrun, hexec⟩ := step_next s h
  obtain ⟨-, raised, -⟩ := pcOverflowKeepsTheEffectAndFaults
  obtain ⟨htop, hpc, hsentinel, -⟩ := raised _ s t hexec (by rw [hrun]; decide) ht
  exact ⟨htop, hpc, fun hzero => hsentinel ((decode_eq_sentinel_iff _).mpr hzero)⟩

/-- Settles O35: a step to the fault starts at index 8191 on a word that is no sentinel. -/
theorem sentinelInTheLastWordKeepsTheFaultAway : Obligations.SentinelInTheLastWordKeepsTheFaultAway := by
  intro s t hlast _ h
  refine ⟨((step_sameParameters h).fetch_eq _).trans hlast, fun ht => ?_⟩
  obtain ⟨htop, -, hword⟩ := step_faults h ht
  have hpc : s.pc = Config.lastIndex := BitVec.eq_of_toNat_eq htop
  exact hword (hpc ▸ hlast)

/-- What holds of a state and is kept by every step holds of every state its run reaches. -/
theorem State.Reaches.invariant {I : State → Prop} (hstep : ∀ s t, I s → step s = .next t → I t) {s t : State}
    (h : s.Reaches t) (hs : I s) : I t := by
  obtain ⟨k, hk⟩ := h
  exact State.after_induction (P := fun s t _ => I s → I t) (fun _ => id)
    (fun s t _ _ hst ih hs => ih (hstep s t hs hst)) hk hs

/-- Settles O36: boot fills word 8191 and starts the run, and every step keeps the fault away. -/
theorem filledImagesNeverFault : Obligations.FilledImagesNeverFault := by
  intro s u h hfill hboot t hreach
  rcases s.boot_cases h with ⟨-, hok⟩ | ⟨-, herr⟩
  · obtain rfl := Except.ok.inj (hok.symm.trans hboot)
    have kept : t.LastWordIsSentinel ∧ ¬ t.Faulted := by
      refine hreach.invariant (I := fun s => s.LastWordIsSentinel ∧ ¬ s.Faulted)
        (fun s t hs => sentinelInTheLastWordKeepsTheFaultAway s t hs.1 hs.2) ⟨?_, nofun⟩
      exact (State.fetch_ofList { s.applyReset with exitOnEof := h.exitOnEof, input := h.input } h.image _).trans hfill
    exact kept.2
  · cases herr.symm.trans hboot

/-- `advance` leaves `STATUS` alone or raises the fault. -/
theorem State.advance_status (u : State) : u.advance.status = u.status ∨ u.advance.status = .faultPcOverflow := by
  rcases u.advance_cases with ⟨-, h⟩ | ⟨-, h⟩ <;> rw [h]
  · exact .inr rfl
  · exact .inl rfl

/-- An instruction leaves `STATUS` alone, raises the fault, or is one of the two stops. -/
theorem exec_status {i : Instr} {s t : State} (h : exec i s = .next t) :
    (t.status = s.status ∨ t.status = .faultPcOverflow) ∨ (i = .sentinel ∧ t = { s with status := .haltEnd }) ∨
      (i = .get ∧ s.input.length ≤ s.inPos ∧ s.exitOnEof = true ∧ t = { s with status := .haltEof }) := by
  rcases exec_cases h with ⟨hi, rfl⟩ | ⟨n, -, rfl⟩ | ⟨n, -, rfl⟩ | ⟨n, -, rfl⟩ | ⟨n, -, rfl⟩ | ⟨n, -, rfl⟩ | ⟨n, -, rfl⟩ |
    ⟨b, -, -, rfl⟩ | ⟨hi, hnone, hflag, rfl⟩ | ⟨-, -, -, rfl⟩ | ⟨-, rfl⟩
  · exact .inr (.inl ⟨hi, rfl⟩)
  · exact .inl (State.advance_status _)
  · exact .inl (State.advance_status _)
  · exact .inl (State.advance_status _)
  · exact .inl (State.advance_status _)
  · split
    · exact .inl (.inl rfl)
    · exact .inl s.advance_status
  · split
    · exact .inl s.advance_status
    · exact .inl (.inl rfl)
  · exact .inl (State.advance_status _)
  · exact .inr (.inr ⟨hi, List.getElem?_eq_none_iff.mp hnone, hflag, rfl⟩)
  · exact .inl (State.advance_status _)
  · exact .inl (State.advance_status _)

/-- Settles O31: the two stops are END's and GET's, and what else stops a run is the fault. -/
theorem stepEndsTheRunInThreeWaysOnly : Obligations.StepEndsTheRunInThreeWaysOnly := by
  intro s t h
  obtain ⟨hrun, hexec⟩ := step_next s h
  rcases exec_status hexec with (hsame | hfault) | ⟨hi, ht⟩ | hstop
  · exact .inl (hsame.trans hrun)
  · obtain ⟨htop, hpc, hword⟩ := step_faults h hfault
    exact .inr (.inr (.inr ⟨htop, hpc, hfault, hword⟩))
  · exact .inr (.inl ⟨(decode_eq_sentinel_iff _).mp hi, ht⟩)
  · exact .inr (.inr (.inl hstop))

/-- Settles O14: a next state comes from a running state alone, and every instruction completes. -/
theorem runningCoreAlwaysSteps : Obligations.RunningCoreAlwaysSteps := fun s =>
  ⟨fun ⟨_, h⟩ => (step_next s h).1, step_completes⟩

end Sys2Proof.Machine
end

section
/-! Turned machines (spec/10_state.md section 3, last sentence; the ring of spec/41_pointer_movement.md): each shared operation
keeps two states turned against each other, and so do every instruction, every step and every run. -/

namespace Sys2Proof.Machine

section

variable {k : CellAddr} {s t : State}

theorem RotatedBy.memRead_dp (h : RotatedBy k s t) : t.memRead t.dp = s.memRead s.dp := by
  obtain ⟨-, hdp, hcells, -⟩ := h
  rw [hdp, hcells]

/-! ### The shared operations -/

theorem RotatedBy.setPc (h : RotatedBy k s t) (n : CodeIndex) : RotatedBy k (s.setPc n) (t.setPc n) := by
  obtain ⟨-, hrest⟩ := h
  exact ⟨rfl, hrest⟩

theorem RotatedBy.setStatus (h : RotatedBy k s t) (c : Status) : RotatedBy k (s.setStatus c) (t.setStatus c) := by
  obtain ⟨hpc, hdp, hcells, hin, hout, -, hparams⟩ := h
  exact ⟨hpc, hdp, hcells, hin, hout, rfl, hparams⟩

theorem RotatedBy.setDp (h : RotatedBy k s t) {d e : CellAddr} (hd : e = d + k) :
    RotatedBy k (s.setDp d) (t.setDp e) := by
  obtain ⟨hpc, -, hrest⟩ := h
  exact ⟨hpc, hd, hrest⟩

theorem RotatedBy.advance (h : RotatedBy k s t) : RotatedBy k s.advance t.advance := by
  have hpc : t.pc = s.pc := h.1
  rcases s.advance_cases with ⟨htop, hs⟩ | ⟨hbelow, hs⟩ <;> rcases t.advance_cases with ⟨htop', ht⟩ | ⟨hbelow', ht⟩
  · rw [hs, ht]
    exact h.setStatus _
  · exact absurd (hpc.trans htop) hbelow'
  · exact absurd (hpc.symm.trans htop') hbelow
  · rw [hs, ht, hpc]
    exact h.setPc _

/-- A store into the current cell of both: the cells stored to correspond, and so do the others. -/
theorem RotatedBy.storeCurrent (h : RotatedBy k s t) (v : Byte) :
    RotatedBy k (s.memWrite s.dp v) (t.memWrite t.dp v) := by
  obtain ⟨hpc, hdp, hcells, hrest⟩ := h
  refine ⟨hpc, hdp, fun a => ?_, hrest⟩
  rw [State.memRead_memWrite, State.memRead_memWrite, hdp, hcells]
  simp only [add_left_inj]

theorem RotatedBy.consume (h : RotatedBy k s t) :
    RotatedBy k { s with inPos := s.inPos + 1 } { t with inPos := t.inPos + 1 } := by
  obtain ⟨hpc, hdp, hcells, hin, hrest⟩ := h
  exact ⟨hpc, hdp, hcells, congrArg (· + 1) hin, hrest⟩

theorem RotatedBy.outPut (h : RotatedBy k s t) (b : Byte) : RotatedBy k (s.outPut b) (t.outPut b) := by
  obtain ⟨hpc, hdp, hcells, hin, hout, hrest⟩ := h
  exact ⟨hpc, hdp, hcells, hin, congrArg (· ++ [b]) hout, hrest⟩

theorem pointerLeft_add (d k : CellAddr) (n : Operand) : pointerLeft (d + k) n = pointerLeft d n + k := by
  rw [pointerLeft_eq, pointerLeft_eq, add_sub_right_comm]

theorem pointerRight_add (d k : CellAddr) (n : Operand) : pointerRight (d + k) n = pointerRight d n + k := by
  rw [pointerRight_eq, pointerRight_eq, add_right_comm]

/-! ### Instructions, steps and runs -/

/-- Every instruction makes of two turned states two turned states: the cell it tests, stores to or prints is the same, and so
is the input byte. -/
theorem RotatedBy.exec_next {i : Instr} {s' : State} (h : RotatedBy k s t) (hs : exec i s = .next s') :
    ∃ t', exec i t = .next t' ∧ RotatedBy k s' t' := by
  have hcell := h.memRead_dp
  have ⟨_, hdp, _, hin, _, _, _, hinput, hflag⟩ := h
  have hbyte : t.input[t.inPos]? = s.input[s.inPos]? := by rw [hin, hinput]
  rcases exec_cases hs with ⟨rfl, rfl⟩ | ⟨n, rfl, rfl⟩ | ⟨n, rfl, rfl⟩ | ⟨n, rfl, rfl⟩ | ⟨n, rfl, rfl⟩ | ⟨n, rfl, rfl⟩ |
    ⟨n, rfl, rfl⟩ | ⟨b, rfl, hb, rfl⟩ | ⟨rfl, hb, hf, rfl⟩ | ⟨rfl, hb, hf, rfl⟩ | ⟨rfl, rfl⟩
  · exact ⟨_, exec_sentinel t, h.setStatus _⟩
  · exact ⟨_, hcell ▸ exec_add t n, (h.storeCurrent _).advance⟩
  · exact ⟨_, hcell ▸ exec_sub t n, (h.storeCurrent _).advance⟩
  · exact ⟨_, exec_lft t n, (h.setDp (hdp ▸ pointerLeft_add s.dp k n)).advance⟩
  · exact ⟨_, exec_rgt t n, (h.setDp (hdp ▸ pointerRight_add s.dp k n)).advance⟩
  · refine ⟨_, hcell ▸ exec_jpz t n, ?_⟩
    split
    · exact h.setPc n
    · exact h.advance
  · refine ⟨_, hcell ▸ exec_jnz t n, ?_⟩
    split
    · exact h.advance
    · exact h.setPc n
  · exact ⟨_, exec_get_byte t (hbyte.trans hb), (h.consume.storeCurrent b).advance⟩
  · exact ⟨_, exec_get_eos_stop t (hbyte.trans hb) (hflag.trans hf), h.setStatus _⟩
  · exact ⟨_, exec_get_eos_zero t (hbyte.trans hb) (hflag.trans hf), (h.storeCurrent 0).advance⟩
  · exact ⟨_, hcell ▸ exec_put t, (h.outPut _).advance⟩

end

/-- Settles O38: both states run, fetch the same word, and execute it alike. -/
theorem turnedTapesStepAlike : Obligations.TurnedTapesStepAlike := by
  intro k s t s' h hstep
  obtain ⟨hrun, hexec⟩ := step_next s hstep
  obtain ⟨t', ht, hturned⟩ := h.exec_next hexec
  obtain ⟨hpc, -, -, -, -, hstatus, hparams⟩ := h
  have hinstr : t.instrAtPc = s.instrAtPc := by
    rw [State.instrAtPc, State.instrAtPc, hpc, hparams.fetch_eq]
  exact ⟨t', by rw [step_running t (hstatus.trans hrun), hinstr, ht], hturned⟩

theorem RotatedBy.after {k : CellAddr} {s t s' : State} {n : Nat} (h : RotatedBy k s t) (hs : s.after n = some s') :
    ∃ t', t.after n = some t' ∧ RotatedBy k s' t' := by
  induction n generalizing s t with
  | zero => exact ⟨t, rfl, Option.some.inj hs ▸ h⟩
  | succ n ih =>
    obtain ⟨u, hstep, hrest⟩ := State.after_succ_cases hs
    obtain ⟨v, hstep', hturned⟩ := turnedTapesStepAlike k s t u h hstep
    rw [State.after_succ hstep']
    exact ih hturned hrest

/-- Settles O39: the runs stay turned against each other, and turned states show the same output, STATUS and `pc`. -/
theorem outputDoesNotDependOnWhereThePointerStarts : Obligations.OutputDoesNotDependOnWhereThePointerStarts := by
  intro k s t s' n h hs
  obtain ⟨t', ht, hpc, -, -, -, hout, hstatus, -⟩ := h.after hs
  exact ⟨t', ht, hout, hstatus, hpc⟩

end Sys2Proof.Machine
end

section
/-! Jumps as idioms (spec/42_control_transfer.md section 4, spec/30_encoding.md sections 4 and 5): to the own index, to the
successor, and the pair of both jumps. -/

namespace Sys2Proof.Machine

theorem State.diverges_of_step_self {s : State} (hs : s.status = .running) (h : step s = .next s) : s.Diverges := by
  intro k
  refine ⟨s, ?_, hs⟩
  induction k with
  | zero => rfl
  | succ k ih => rw [State.after_succ h, ih]

/-- The step of a running core that fetches the word of a term some word stands for. -/
theorem step_of_fetch_eq_encode {s : State} {i : Instr} (hs : s.status = .running) (hi : i ≠ .add 0)
    (hw : s.fetch s.pc = encode i) : step s = exec i s := by
  rw [step_running s hs, State.instrAtPc, hw, decode_encode hi]

/-- Settles O40: the jump writes to `pc` the index it holds. -/
theorem takenJumpToItselfNeverEnds : Obligations.TakenJumpToItselfNeverEnds := by
  intro s hs
  refine ⟨fun hw hzero => ?_, fun hw hne => ?_⟩
  · have hself : step s = .next s :=
      (step_of_fetch_eq_encode (i := .jpz s.pc) hs nofun hw).trans (exec_jpz_of_zero hzero s.pc)
    exact ⟨hself, State.diverges_of_step_self hs hself⟩
  · have hself : step s = .next s :=
      (step_of_fetch_eq_encode (i := .jnz s.pc) hs nofun hw).trans (exec_jnz_of_ne_zero hne s.pc)
    exact ⟨hself, State.diverges_of_step_self hs hself⟩

theorem State.advance_of_lt {s : State} (h : s.pc.toNat < 8191) : s.advance = s.setPc (s.pc + 1) := by
  rcases s.advance_cases with ⟨htop, -⟩ | ⟨-, hadv⟩
  · rw [htop] at h
    exact absurd h (by decide)
  · exact hadv

/-- Settles O45: taken, the jump writes the successor; not taken, it advances to it. -/
theorem jumpToTheSuccessorIsANoOperation : Obligations.JumpToTheSuccessorIsANoOperation := by
  intro s hbelow
  have hadv : Host.Outcome.next (φ := Fault) (ρ := Refusal) s.advance = .next (s.setPc (s.pc + 1)) :=
    congrArg _ (State.advance_of_lt hbelow)
  by_cases hcell : s.memRead s.dp = 0
  · exact ⟨exec_jpz_of_zero hcell _, (exec_jnz_of_zero hcell _).trans hadv⟩
  · exact ⟨(exec_jpz_of_ne_zero hcell _).trans hadv, exec_jnz_of_ne_zero hcell _⟩

/-- Settles O46: on a zero cell JPZ jumps, on any other it advances and JNZ, which reads the same cell, jumps. -/
theorem jumpPairAlwaysReachesItsTarget : Obligations.JumpPairAlwaysReachesItsTarget := by
  intro s t hbelow
  by_cases hcell : s.memRead s.dp = 0
  · exact ⟨s.setPc t, exec_jpz_of_zero hcell t, .inl rfl⟩
  · refine ⟨s.setPc (s.pc + 1), State.advance_of_lt hbelow ▸ exec_jpz_of_ne_zero hcell t, .inr ⟨rfl, ?_⟩⟩
    exact exec_jnz_of_ne_zero (s := s.setPc (s.pc + 1)) hcell t

end Sys2Proof.Machine
end

section
/-! The laws of the arithmetic (spec/40_cell_arithmetic.md, spec/41_pointer_movement.md, spec/30_encoding.md sections 2 and 4),
in the ring of the cells and in that of the addresses. -/

namespace Sys2Proof.Machine

theorem setWidth_eq_of_mod_eq {n m : Operand} (h : n.toNat % 256 = m.toNat % 256) :
    n.setWidth 8 = m.setWidth 8 := by
  apply BitVec.eq_of_toNat_eq
  rwa [BitVec.toNat_setWidth, BitVec.toNat_setWidth]

theorem cellPlus_congr_mod (c : Byte) {n m : Operand} (h : n.toNat % 256 = m.toNat % 256) :
    cellPlus c n = cellPlus c m := by
  rw [cellPlus_eq, cellPlus_eq, setWidth_eq_of_mod_eq h]

theorem cellMinus_congr_mod (c : Byte) {n m : Operand} (h : n.toNat % 256 = m.toNat % 256) :
    cellMinus c n = cellMinus c m := by
  rw [cellMinus_eq, cellMinus_eq, setWidth_eq_of_mod_eq h]

@[simp] theorem cellPlus_zero (c : Byte) : cellPlus c 0 = c := by
  rw [cellPlus_eq]
  exact add_zero c

@[simp] theorem cellMinus_zero (c : Byte) : cellMinus c 0 = c := by
  rw [cellMinus_eq]
  exact sub_zero c

@[simp] theorem pointerLeft_zero (d : CellAddr) : pointerLeft d 0 = d := by
  rw [pointerLeft_eq]
  exact sub_zero d

@[simp] theorem pointerRight_zero (d : CellAddr) : pointerRight d 0 = d := by
  rw [pointerRight_eq]
  exact add_zero d

@[simp] theorem cellMinus_cellPlus (c : Byte) (n : Operand) : cellMinus (cellPlus c n) n = c := by
  rw [cellMinus_eq, cellPlus_eq, add_sub_cancel_right]

@[simp] theorem pointerLeft_pointerRight (d : CellAddr) (n : Operand) : pointerLeft (pointerRight d n) n = d := by
  rw [pointerLeft_eq, pointerRight_eq, add_sub_cancel_right]

/-! ### The instructions -/

/-- Settles O41: both results depend on the operand's low 8 bits alone. -/
theorem cellOperandsCountModulo256 : Obligations.CellOperandsCountModulo256 := by
  intro n m s h
  refine ⟨?_, ?_⟩
  · rw [exec_add, exec_add, cellPlus_congr_mod _ h]
  · rw [exec_sub, exec_sub, cellMinus_congr_mod _ h]

/-- The cells and `dp` after an instruction whose meaning is to store `v` into the current cell and advance. -/
theorem exec_store_cells {i : Instr} {s t : State} {v : Byte} (h : exec i s = .next t)
    (hstore : exec i s = .next (s.memWrite s.dp v).advance) :
    t.memRead s.dp = v ∧ OtherCellsSame s t ∧ t.dp = s.dp := by
  obtain ⟨hcell, hothers, hdp, -⟩ := State.storeCurrent_advance (Host.Outcome.next.inj (h.symm.trans hstore))
  exact ⟨hcell, hothers, hdp⟩

/-- Two instructions on the same current cell leave the other cells alone. -/
theorem OtherCellsSame.trans {s t u : State} (hst : OtherCellsSame s t) (hdp : t.dp = s.dp)
    (htu : OtherCellsSame t u) : OtherCellsSame s u := fun a ha =>
  (htu a (hdp ▸ ha)).trans (hst a ha)

/-- Settles O42: the second ADD reads the cell the first one stored. -/
theorem twoAddsAddUpModulo256 : Obligations.TwoAddsAddUpModulo256 := by
  intro a b s t u hst htu
  obtain ⟨hcell, hothers, hdp⟩ := exec_store_cells hst (exec_add s a)
  obtain ⟨hcell', hothers', -⟩ := exec_store_cells htu (exec_add t b)
  rw [hdp, hcell] at hcell'
  refine ⟨?_, hothers.trans hdp hothers'⟩
  rw [hcell', cellPlus_toNat, cellPlus_toNat, Nat.mod_add_mod]

/-- All cells are as before where the current one and the others are. -/
theorem OtherCellsSame.all {s t : State} (h : OtherCellsSame s t) (hcell : t.memRead s.dp = s.memRead s.dp)
    (a : CellAddr) : t.memRead a = s.memRead a := by
  by_cases ha : a = s.dp
  · rw [ha, hcell]
  · exact h a ha

/-- Settles O43: SUB undoes ADD in the current cell, LFT undoes RGT in `dp`. -/
theorem oppositeInstructionsRestore : Obligations.OppositeInstructionsRestore := by
  intro n s t u
  refine ⟨fun hst htu => ?_, fun hst htu => ?_⟩
  · obtain ⟨hcell, hothers, hdp⟩ := exec_store_cells hst (exec_add s n)
    obtain ⟨hcell', hothers', -⟩ := exec_store_cells htu (exec_sub t n)
    rw [hdp, hcell, cellMinus_cellPlus] at hcell'
    exact (hothers.trans hdp hothers').all hcell'
  · obtain rfl := Host.Outcome.next.inj ((exec_rgt s n).symm.trans hst)
    obtain rfl := Host.Outcome.next.inj ((exec_lft _ n).symm.trans htu)
    simp

/-- Storing into the current cell what it holds is `advance` to every reader of the cells. -/
theorem State.storeCurrent_same (s : State) {v : Byte} (hv : v = s.memRead s.dp) :
    (∀ a, (s.memWrite s.dp v).advance.memRead a = s.memRead a) ∧ (s.memWrite s.dp v).advance.dp = s.dp ∧
      Advanced s (s.memWrite s.dp v).advance := by
  obtain ⟨hcell, hothers, hdp, -, -, hadv⟩ := State.storeCurrent_advance (s := s) (v := v) rfl
  exact ⟨hothers.all (hcell.trans hv), hdp, hadv⟩

/-- Settles O44: a multiple of 256 counts as 0, and with 0 the cell stored or the address set is the old one. -/
theorem wordsWithoutEffectOnlyAdvance : Obligations.WordsWithoutEffectOnlyAdvance := by
  intro s n h
  have hzero : n.toNat % 256 = (0 : Operand).toNat % 256 := h
  refine ⟨⟨_, exec_sub s n, s.storeCurrent_same ?_⟩, ⟨_, exec_add s n, s.storeCurrent_same ?_⟩, ?_, ?_⟩
  · rw [cellMinus_congr_mod _ hzero, cellMinus_zero]
  · rw [cellPlus_congr_mod _ hzero, cellPlus_zero]
  · rw [exec_lft, pointerLeft_zero]
    rfl
  · rw [exec_rgt, pointerRight_zero]
    rfl

/-- Settles O16: R82 in numbers, and the two fields `advance` can write. -/
theorem advanceMovesOneOnAndNeverWraps : Obligations.AdvanceMovesOneOnAndNeverWraps := by
  intro s
  refine ⟨State.advanced_advance rfl rfl, ?_⟩
  obtain ⟨p, c, hadv⟩ := s.advance_settles
  rw [hadv]
  rfl

end Sys2Proof.Machine
end

section
/-! What the host does (spec/70_reset_and_hazards.md sections 1 and 2, spec/60_exceptions.md section 8): a word placed, the
first step after reset, an image booted, and the ports that wait for the stop. -/

namespace Sys2Proof.Machine

/-- Placing a whole word, given by its number. -/
theorem State.withFetchWord_toNat (s : State) (w : Word) : s.withFetchWord 16 w.toNat = s.placeWord w := by
  rw [State.withFetchWord, Nat.mod_eq_of_lt w.isLt, BitVec.ofNat_toNat, BitVec.setWidth_eq]

theorem State.fetch_placeWord (s : State) (w : Word) (j : CodeIndex) :
    (s.placeWord w).fetch j = if j = s.pc then w else s.fetch j :=
  s.fetch_loadWord s.pc j w

/-- Settles O12: the state in which the word was placed runs, and fetches it at its own `pc`. -/
theorem placedWordIsExecutedNext : Obligations.PlacedWordIsExecutedNext := by
  intro s w
  rw [s.withFetchWord_toNat w]
  refine ⟨?_, fun j hj => (s.fetch_placeWord w j).trans (if_neg hj), rfl⟩
  have hword : (s.placeWord w).fetch (s.placeWord w).pc = w := (s.fetch_placeWord w s.pc).trans (if_pos rfl)
  rw [step_running _ rfl, State.instrAtPc, hword]

/-- Settles O49: reset leaves the core running at index 0 of the memory it had. -/
theorem firstStepAfterResetRunsWordZero : Obligations.FirstStepAfterResetRunsWordZero := fun s =>
  ⟨step_running s.applyReset s.applyReset_status, fun hzero => step_of_fetch_eq_zero s.applyReset_status hzero⟩

/-- Settles O50: an image that fits is what the instruction memory reads as, beside the values of reset; a longer one is
refused. -/
theorem bootLoadsTheImageThenSentinels : Obligations.BootLoadsTheImageThenSentinels := by
  intro s h
  rcases s.boot_cases h with ⟨hfits, hok⟩ | ⟨hlong, herr⟩
  · refine ⟨fun _ => ⟨_, hok, fun i => ?_, rfl, rfl, s.applyReset_pc, s.applyReset_dp, s.applyReset_memRead,
      s.applyReset_inPos, s.applyReset_out, s.applyReset_status⟩, fun hlong => absurd hfits hlong.not_ge⟩
    exact State.fetch_ofList { s.applyReset with exitOnEof := h.exitOnEof, input := h.input } h.image i
  · exact ⟨fun hfits => absurd hfits hlong.not_ge, fun _ => herr⟩

/-! ### The ports -/

theorem State.tapePeek_cases (s : State) (a : CellAddr) :
    (s.status = .running ∧ s.tapePeek a = .error .whileRunning) ∨
      (s.status ≠ .running ∧ s.tapePeek a = .ok (s.memRead a)) :=
  s.waits_cases _ _

theorem State.result_cases (s : State) :
    (s.status = .running ∧ s.result = none) ∨
      (s.status ≠ .running ∧ s.result =
        some { status := s.status, out := s.out, pc := s.pc, dp := s.dp, tape := s.tape, inPos := s.inPos }) :=
  s.waits_cases _ _

/-- The code of each STATUS, and of no other (R18). -/
theorem statusCode_toNat_iff (c : Status) :
    ((statusCode c).toNat = 0 ↔ c = .running) ∧ ((statusCode c).toNat = 1 ↔ c = .haltEnd) ∧
      ((statusCode c).toNat = 2 ↔ c = .haltEof) ∧ ((statusCode c).toNat = 3 ↔ c = .faultPcOverflow) := by
  cases c <;> decide

/-- Settles O51: of each port's two answers, STATUS leaves one. -/
theorem hostWaitsForTheStop : Obligations.HostWaitsForTheStop := by
  intro s
  have ⟨hzero, hone, htwo, hthree⟩ := statusCode_toNat_iff s.status
  refine ⟨fun hrun => ⟨fun i w => ?_, fun f => ?_, fun a => ?_, ?_⟩,
    fun hstop => ⟨fun a => ?_, fun f => ?_, fun i w => ?_, ?_⟩, hzero, hone, htwo, hthree, rfl, rfl⟩
  · exact ((s.imemLoad_cases i w).resolve_right fun h => h.1 hrun).2
  · exact ((s.configure_cases f).resolve_right fun h => h.1 hrun).2
  · exact ((s.tapePeek_cases a).resolve_right fun h => h.1 hrun).2
  · exact (s.result_cases.resolve_right fun h => h.1 hrun).2
  · exact ((s.tapePeek_cases a).resolve_left fun h => hstop h.1).2
  · have hset := ((s.configure_cases f).resolve_left fun h => hstop h.1).2
    exact ⟨_, hset, BitVec.toNat_ofBool f, rfl⟩
  · have hload := ((s.imemLoad_cases i w).resolve_left fun h => hstop h.1).2
    exact ⟨_, hload, (s.fetch_loadWord i i w).trans (if_pos rfl),
      fun j hj => (s.fetch_loadWord i j w).trans (if_neg hj), rfl⟩
  · have hresult := (s.result_cases.resolve_left fun h => hstop h.1).2
    exact ⟨_, hresult, rfl, rfl, rfl, rfl, rfl, rfl⟩

end Sys2Proof.Machine
end

section
/-! The disassembler (spec/30_encoding.md section 6): the listing is the words before the first sentinel, each as its line. -/

namespace Sys2Proof.Machine

theorem disassemble_eq_map (ws : List Word) : disassemble ws = (ws.takeWhile (· ≠ 0)).map lineOf := by
  induction ws with
  | nil => rfl
  | cons w ws ih =>
    rw [disassemble, Config.sentinelWord]
    by_cases hw : w = 0
    · rw [if_pos hw, List.takeWhile_cons_of_neg (by simp [hw]), List.map_nil]
    · rw [if_neg hw, List.takeWhile_cons_of_pos (by simpa using hw), List.map_cons, ih]

/-- The name of an instruction, by the number of its opcode (R48). -/
theorem mnemonicOf_instr (op : Opcode) (n : Operand) :
    some (mnemonicOf (op.instr n)) =
      ["ADD", "SUB", "LFT", "RGT", "JPZ", "JNZ", "GET", "PUT"][(opcodeBits op).toNat]? := by
  cases op <;> rfl

/-- The line of a word other than the sentinel. -/
theorem lineOf_of_ne_zero {w : Word} (hw : w ≠ 0) :
    (lineOf w).operand = w.toNat / 8 ∧ some (lineOf w).mnemonic =
      ["ADD", "SUB", "LFT", "RGT", "JPZ", "JNZ", "GET", "PUT"][w.toNat % 8]? := by
  refine ⟨operandField_toNat w, ?_⟩
  rw [lineOf, decode_of_ne_zero hw, mnemonicOf_instr, opcodeBits_toNat_of_word]

/-- Settles O55: a line of the listing is the line of a word before the first sentinel. -/
theorem disassemblerListsTheWordsUpToTheSentinel : Obligations.DisassemblerListsTheWordsUpToTheSentinel := by
  intro ws
  rw [disassemble_eq_map]
  refine ⟨List.length_map _, fun k l hl => ?_⟩
  rw [List.getElem?_map, Option.map_eq_some_iff] at hl
  obtain ⟨w, hk, rfl⟩ := hl
  have hlisted := List.mem_takeWhile_imp (List.mem_of_getElem? hk)
  have hw : w ≠ 0 := of_decide_eq_true hlisted
  obtain ⟨rest, hrest⟩ := List.takeWhile_prefix (l := ws) (· ≠ 0)
  refine ⟨w, ?_, hw, lineOf_of_ne_zero hw⟩
  rw [← hrest]
  exact (List.getElem?_append_left (List.getElem?_eq_some_iff.mp hk).1).trans hk

end Sys2Proof.Machine
end

section
/-! The assembler's words (spec/30_encoding.md section 5): one per element, and one for a whole run. -/

namespace Sys2Proof.Machine

/-! ### How many words -/

theorem AsmState.foldl_element_length (es : List Element) (a : AsmState) :
    (es.foldl AsmState.element a).code.length = a.code.length + (es.filter (· ≠ .comment)).length := by
  induction es generalizing a with
  | nil => rfl
  | cons e es ih =>
    rw [List.foldl_cons, ih, AsmState.element_length]
    by_cases he : e = .comment
    · rw [if_pos he, List.filter_cons_of_neg (by simp [he]), Nat.add_zero]
    · rw [if_neg he, List.filter_cons_of_pos (by simp [he]), List.length_cons]
      omega

theorem assembleElements_length (src : List Char) :
    (assembleElements src).code.length = ((elements src).filter (· ≠ .comment)).length := by
  rw [assembleElements, AsmState.foldl_element_length]
  exact Nat.zero_add _

theorem consElement_length_le (e : Element) (es : List Element) : (consElement e es).length ≤ es.length + 1 := by
  unfold consElement
  split
  · split <;> simp
  · simp

theorem elements_length_le (src : List Char) : (elements src).length ≤ src.length := by
  induction src with
  | nil => exact Nat.le_refl 0
  | cons c cs ih => exact (consElement_length_le _ _).trans (Nat.succ_le_succ ih)

/-- Settles O53: each element but a comment emits one word, and no element is shorter than a character. -/
theorem assembledImageHasOneWordPerElement : Obligations.AssembledImageHasOneWordPerElement := by
  intro src ws h
  obtain ⟨-, rfl, hfits⟩ := assemble_ok h
  have hcode := assembleElements_length src
  have hfilter := List.length_filter_le (· ≠ .comment) (elements src)
  have helements := elements_length_le src
  refine ⟨?_, ?_, hfits, List.getLast?_concat⟩ <;> rw [List.length_append, List.length_singleton]
  · omega
  · omega

/-! ### Runs of one operator -/

/-- A source of one operator is one run (R62). -/
theorem elements_replicate {c : Char} {op : RunOp} (hc : elementOf c = .run op 1) (n : Nat) :
    elements (List.replicate (n + 1) c) = [.run op (n + 1)] := by
  induction n with
  | zero => rw [List.replicate_one, elements, hc]; rfl
  | succ n ih =>
    rw [List.replicate_succ, elements, ih, hc, consElement, if_pos rfl, Nat.add_comm 1]

/-- What is assembled where no bracket stays open and the words fit. -/
theorem assemble_of_fits {src : List Char} (hstack : (assembleElements src).stack = [])
    (hfits : (assembleElements src).code.length < Config.imemWords) :
    assemble src = .ok ((assembleElements src).code ++ [Config.sentinelWord]) := by
  have hlen : ¬ ((assembleElements src).code ++ [Config.sentinelWord]).length > Config.imemWords := by
    rw [List.length_append, List.length_singleton]
    omega
  simp only [assemble]
  rw [if_neg (not_not.mpr hstack), if_neg hlen]

theorem assemble_replicate {c : Char} {op : RunOp} (hc : elementOf c = .run op 1) {n : Nat} (hn : 0 < n) :
    assemble (List.replicate n c) = .ok [asmWord (n % 8192) (runOpcode op), Config.sentinelWord] := by
  obtain ⟨m, rfl⟩ := Nat.exists_eq_succ_of_ne_zero hn.ne'
  have hrun : assembleElements (List.replicate (m + 1) c) =
      { code := [asmWord ((m + 1) % 8192) (runOpcode op)], stack := [] } := by
    rw [assembleElements, elements_replicate hc]
    rfl
  have hfits : (assembleElements (List.replicate (m + 1) c)).code.length < Config.imemWords := by
    rw [hrun]
    exact (by decide : 1 < Config.imemWords)
  rw [assemble_of_fits (by rw [hrun]) hfits, hrun]
  rfl

/-- Settles O52: each of the four operators assembles as its own run. -/
theorem runAssemblesToItsLengthModulo8192 : Obligations.RunAssemblesToItsLengthModulo8192 := fun _ hn =>
  ⟨assemble_replicate (op := .plus) rfl hn, assemble_replicate (op := .minus) rfl hn,
    assemble_replicate (op := .left) rfl hn, assemble_replicate (op := .right) rfl hn⟩

end Sys2Proof.Machine
end

section
/-! The assembler's brackets (spec/30_encoding.md section 5, R63, C1): a word that reads as JPZ is an open bracket still on the
stack, or one of a pair that was closed. -/

namespace Sys2Proof.Machine

/-- The open bracket at `j` was closed at `k`: each of the two words names the other, and neither will be patched again, since
`k` is not on the stack. -/
def AsmState.Pair (a : AsmState) (j k : Nat) : Prop :=
  j < k ∧ k ∉ a.stack ∧ a.code[j]? = some (asmWord (k + 1) 4) ∧ a.code[k]? = some (asmWord j 5)

/-- What holds of the Compiler's state after every element: open brackets are words emitted, and every other word with the
opcode of JPZ is the first of a pair. -/
structure AsmState.Matched (a : AsmState) : Prop where
  stack_lt : ∀ j ∈ a.stack, j < a.code.length
  paired : ∀ j w, a.code[j]? = some w → w.toNat % 8 = 4 → j ∉ a.stack → ∃ k, a.Pair j k

theorem AsmState.Pair.lt_length {a : AsmState} {j k : Nat} (h : a.Pair j k) :
    j < a.code.length ∧ k < a.code.length := by
  obtain ⟨-, -, hj, hk⟩ := h
  exact ⟨(List.getElem?_eq_some_iff.mp hj).1, (List.getElem?_eq_some_iff.mp hk).1⟩

theorem AsmState.Pair.not_mem_stack {a : AsmState} {j k : Nat} (h : a.Pair j k) : k ∉ a.stack := by
  obtain ⟨-, hk, -⟩ := h
  exact hk

/-- A pair stays one where its two words stay and its JNZ is not put on the stack. -/
theorem AsmState.Pair.of_same_words {a b : AsmState} {j k : Nat} (h : a.Pair j k) (hstack : k ∉ b.stack)
    (hj : b.code[j]? = a.code[j]?) (hk : b.code[k]? = a.code[k]?) : b.Pair j k := by
  obtain ⟨hlt, -, hjpz, hjnz⟩ := h
  exact ⟨hlt, hstack, hj.trans hjpz, hk.trans hjnz⟩

/-- A word of a list with one word more at its end. -/
theorem getElem?_concat_cases {l : List Word} {x w : Word} {j : Nat} (h : (l ++ [x])[j]? = some w) :
    (j < l.length ∧ l[j]? = some w) ∨ (j = l.length ∧ w = x) := by
  rcases Nat.lt_or_ge j l.length with hlt | hge
  · exact .inl ⟨hlt, (List.getElem?_append_left hlt).symm.trans h⟩
  · have hj := (List.getElem?_eq_some_iff.mp h).1
    rw [List.length_append, List.length_singleton] at hj
    obtain rfl : j = l.length := by omega
    rw [List.getElem?_concat_length] at h
    exact .inr ⟨rfl, (Option.some.inj h).symm⟩

/-! ### One element -/

/-- A word without the opcode of JPZ at the end opens and closes nothing. -/
theorem AsmState.Matched.emit {a : AsmState} (h : a.Matched) {x : Word} (hx : x.toNat % 8 ≠ 4) : (a.emit x).Matched where
  stack_lt j hj := by
    rw [AsmState.emit, List.length_append]
    exact Nat.lt_add_right _ (h.stack_lt j hj)
  paired j w hj hw hopen := by
    rcases getElem?_concat_cases hj with ⟨-, hold⟩ | ⟨-, rfl⟩
    · obtain ⟨k, hpair⟩ := h.paired j w hold hw hopen
      obtain ⟨hjlt, hklt⟩ := hpair.lt_length
      exact ⟨k, hpair.of_same_words hpair.not_mem_stack (List.getElem?_append_left hjlt) (List.getElem?_append_left hklt)⟩
    · exact absurd hw hx

/-- The placeholder may read as JPZ, but its index is on the stack. -/
theorem AsmState.Matched.openAt {a : AsmState} (h : a.Matched) : a.openAt.Matched where
  stack_lt j hj := by
    rw [AsmState.openAt, List.length_append]
    rcases List.mem_cons.mp hj with rfl | hj
    · exact Nat.lt_succ_self _
    · exact Nat.lt_add_right _ (h.stack_lt j hj)
  paired j w hj hw hopen := by
    obtain ⟨hnew, hopen⟩ : j ≠ a.code.length ∧ j ∉ a.stack := not_or.mp (mt List.mem_cons.mpr hopen)
    rcases getElem?_concat_cases hj with ⟨-, hold⟩ | ⟨hlast, -⟩
    · obtain ⟨k, hpair⟩ := h.paired j w hold hw hopen
      obtain ⟨hjlt, hklt⟩ := hpair.lt_length
      exact ⟨k, hpair.of_same_words (mt List.mem_cons.mp (not_or.mpr ⟨hklt.ne, hpair.not_mem_stack⟩))
        (List.getElem?_append_left hjlt) (List.getElem?_append_left hklt)⟩
    · exact absurd hlast hnew

/-- Closing at index `k` patches the innermost open bracket, which pairs it with the JNZ emitted at `k`; no word of an older
pair is patched. -/
theorem AsmState.Matched.close {a : AsmState} (h : a.Matched) : a.close.Matched := by
  unfold AsmState.close
  split
  · next j rest hstack =>
    have inner : j < a.code.length := h.stack_lt j (by simp [hstack])
    have outer : ∀ i ∈ rest, i < a.code.length := fun i hi => h.stack_lt i (by simp [hstack, hi])
    have kept {i : Nat} (hi : i < a.code.length) (hne : i ≠ j) (x y : Word) :
        (a.code.set j x ++ [y])[i]? = a.code[i]? := by
      rw [List.getElem?_append_left (by rwa [List.length_set]), List.getElem?_set_ne hne.symm]
    refine ⟨fun i hi => ?_, fun i w hi hw hopen => ?_⟩
    · rw [List.length_append, List.length_set]
      exact Nat.lt_add_right _ (outer i hi)
    by_cases hij : i = j
    · subst hij
      refine ⟨a.code.length, inner, fun hmem => absurd (outer _ hmem) (Nat.lt_irrefl _), ?_, ?_⟩
      · rw [List.getElem?_append_left (by rwa [List.length_set]), List.getElem?_set_self inner]
      · simp
    rcases getElem?_concat_cases hi with ⟨hlt, -⟩ | ⟨-, rfl⟩
    · rw [List.length_set] at hlt
      rw [kept hlt hij] at hi
      obtain ⟨k, hpair⟩ := h.paired i w hi hw (by simp [hstack, hij, hopen])
      obtain ⟨hkj, hkrest⟩ : k ≠ j ∧ k ∉ rest := by simpa [hstack] using hpair.not_mem_stack
      exact ⟨k, hpair.of_same_words hkrest (kept hlt hij _ _) (kept hpair.lt_length.2 hkj _ _)⟩
    · rw [asmWord_mod j (by decide)] at hw
      exact absurd hw (by decide)
  · exact h.emit (by rw [asmWord_mod _ (by decide)]; decide)

theorem runOpcode_lt_four (op : RunOp) : runOpcode op < 4 := by
  cases op <;> decide

theorem AsmState.Matched.element {a : AsmState} (h : a.Matched) (e : Element) : (a.element e).Matched := by
  cases e with
  | run op n =>
    have hop := runOpcode_lt_four op
    exact h.emit (by rw [asmWord_mod _ (by omega)]; exact hop.ne)
  | openBracket => exact h.openAt
  | closeBracket => exact h.close
  | comma | dot => exact h.emit (by decide)
  | comment => exact h

theorem AsmState.Matched.foldl_element (es : List Element) {a : AsmState} (h : a.Matched) :
    (es.foldl AsmState.element a).Matched := by
  induction es generalizing a with
  | nil => exact h
  | cons e es ih => exact ih (h.element e)

theorem assembleElements_matched (src : List Char) : (assembleElements src).Matched :=
  AsmState.Matched.foldl_element _ ⟨fun _ hj => absurd hj List.not_mem_nil, fun _ _ hj => by simp at hj⟩

/-! ### The words as instructions -/

/-- The assembler's word is format W's, its operand taken modulo 8192. -/
theorem asmWord_eq_joinWord (n : Nat) (op : Opcode) :
    asmWord n (opcodeBits op).toNat = joinWord (BitVec.ofNat 13 n) op := by
  apply BitVec.eq_of_toNat_eq
  rw [joinWord_toNat, asmWord, BitVec.toNat_ofNat, BitVec.toNat_ofNat]
  have hop := (opcodeBits op).isLt
  omega

theorem asmWord_jpz (n : Nat) : asmWord n 4 = encode (.jpz (BitVec.ofNat 13 n)) := asmWord_eq_joinWord n .jpz

theorem asmWord_jnz (n : Nat) : asmWord n 5 = encode (.jnz (BitVec.ofNat 13 n)) := asmWord_eq_joinWord n .jnz

theorem encode_jpz_mod (t : Operand) : (encode (.jpz t)).toNat % 8 = 4 := by
  rw [← opcodeField_toNat, Laws.OpcodeBits.jpz t]
  rfl

theorem encode_jpz_injective {t u : Operand} (h : encode (.jpz t) = encode (.jpz u)) : t = u := by
  simpa [encode] using congrArg operandField h

/-- Settles O54: with no bracket open, a word that reads as JPZ is the first of a pair, and the image is short enough for its
operand to be the index after the second. -/
theorem assembledBracketsNameEachOther : Obligations.AssembledBracketsNameEachOther := by
  intro src ws j t h hword
  obtain ⟨hstack, rfl, hfits⟩ := assemble_ok h
  rcases getElem?_concat_cases hword with ⟨-, hj⟩ | ⟨-, hsentinel⟩
  · obtain ⟨k, hpair⟩ := (assembleElements_matched src).paired j _ hj (encode_jpz_mod t) (by simp [hstack])
    obtain ⟨-, hklt⟩ := hpair.lt_length
    obtain ⟨hjk, -, hjpz, hjnz⟩ := hpair
    have ht : t = BitVec.ofNat 13 (k + 1) :=
      encode_jpz_injective (by rw [← asmWord_jpz]; exact Option.some.inj (hj.symm.trans hjpz))
    have htarget : t.toNat = k + 1 := by
      rw [List.length_append, List.length_singleton, Config.imemWords] at hfits
      rw [ht, BitVec.toNat_ofNat]
      omega
    rw [htarget]
    refine ⟨by omega, ?_⟩
    rw [Nat.add_sub_cancel, List.getElem?_append_left hklt, hjnz, asmWord_jnz]
  · have hzero := encode_jpz_mod t
    rw [hsentinel] at hzero
    exact absurd hzero (by decide)

end Sys2Proof.Machine
end
